-- ==== Sys2Proof/Word.lean ====
section
/-! DEFINITION. The words of the unit, each with the one width spec/00_scope.md R2 gives it. -/

namespace Sys2Proof

/-- The operation select on port `op` (R2 `OPW`). -/
abbrev Op := BitVec 3

/-- The operand on port `x_in` and a word of the threshold ROM `T` (R2 `XLEN`, `T_WIDTH`). -/
abbrev Word32 := BitVec 32

/-- The result on port `r_out` and a word of the bias ROM `B` (R2 `RW`, `B_WIDTH`). -/
abbrev Word64 := BitVec 64

/-- A command word, the pair of `op` and `x_in` as one number (R27). -/
abbrev Cmd := BitVec 35

end Sys2Proof
end

