-- ==== Sys2Proof/Machine/Bits.lean ====
section
/-! DEFINITION. The pseudocode primitives of spec/00_scope.md section 6.1, each on its own domain: `clz32` and `msb32` take a
word that is not 0, since they are not defined at 0. -/

namespace Sys2Proof.Machine

/-- A 32-bit word other than 0, the domain of `clz32` and `msb32`. -/
abbrev NonZero := Subtype fun v : Word32 => v ≠ 0

/-- How many of the bits n-1, n-2, … of `v` are 0 before the first that is 1, scanning downwards. -/
def leadingZeros (v : Word32) : Nat → Nat
  | 0 => 0
  | n + 1 => if v.getLsbD n then 0 else leadingZeros v n + 1

/-- Some bit below n is 1, so the scan from bit n-1 stops there. -/
theorem leadingZeros_lt (v : Word32) : ∀ n k, k < n → v.getLsbD k = true → leadingZeros v n < n
  | 0, k, hk, _ => absurd hk (Nat.not_lt_zero k)
  | n + 1, k, hk, hv => by
    unfold leadingZeros
    split
    · omega
    · rename_i hn
      have hkn : k ≠ n := fun h => hn (h ▸ hv)
      have := leadingZeros_lt v n k (by omega) hv
      omega

/-- A word other than 0 has a bit that is 1. -/
theorem exists_bit_of_ne_zero (v : NonZero) : ∃ k, k < 32 ∧ v.val.getLsbD k = true := by
  by_contra h
  refine v.property (BitVec.eq_of_getLsbD_eq fun i hi => ?_)
  have := fun hb => h ⟨i, hi, hb⟩
  simpa using this

/-- The scan over all 32 bits of a word other than 0 stops before it has passed them all. -/
theorem leadingZeros_lt_32 (v : NonZero) : leadingZeros v.val 32 < 32 :=
  let ⟨k, hk, hv⟩ := exists_bit_of_ne_zero v
  leadingZeros_lt v.val 32 k hk hv

/-- `clz32`: the count of zero bits before the first set bit, scanning from the most significant bit; 0..31. -/
def clz32 (v : NonZero) : Fin 32 :=
  ⟨leadingZeros v.val 32, leadingZeros_lt_32 v⟩

/-- `msb32`: `31 - clz32(v)`, the index of the most significant set bit; 0..31. -/
def msb32 (v : NonZero) : Fin 32 :=
  ⟨31 - (clz32 v).val, by omega⟩

/-- How many of the bits n-1, …, 0 of `v` are 1. -/
def setBits (v : Word32) : Nat → Nat
  | 0 => 0
  | n + 1 => (v.getLsbD n).toNat + setBits v n

/-- `popcount32`: the number of bits of `v` that are 1, 0..32. -/
def popcount32 (v : Word32) : Nat :=
  setBits v 32

end Sys2Proof.Machine
end

