-- ==== Sys2Proof/Config.lean ====
section
/-! DEFINITION. What is constant in the unit (spec/10_state.md R10), as a record that the evaluation takes as an argument
(R71), and the free values that stand for outputs the spec leaves UNSPECIFIED (R56, R57). The one set of contents the
spec gives rules for is `Machine.l10u` in Machine/Rom.lean. -/

namespace Sys2Proof

/-- The constants of a unit: the two ROMs (R14) and the mask of ILOG10.D (R46, R2). -/
structure Config where
  /-- ROM `T`, 10 words of 32 bits, indexed by a digit-count guess. -/
  threshold : Vector Word32 10
  /-- ROM `B`, 32 words of 64 bits, indexed by a leading-zero count. -/
  bias : Vector Word64 32
  /-- `DGA_MASK`. -/
  dgaMask : Word32
deriving DecidableEq, Repr

/-- FREE VALUE (log 2): what `r_out` shows in the `n`-th evaluation that signals an error, which applied command word `c`.
R56: any bit pattern, not necessarily the same from one evaluation to the next. -/
opaque Config.freeROut (n : Nat) (c : Cmd) : Word64

/-- FREE VALUE (log 2): what `guess_out` shows in the `n`-th evaluation that signals an error (R56, R57). -/
opaque Config.freeGuessOut (n : Nat) (c : Cmd) : BitVec 4

/-- FREE VALUE (log 2): what `corr_out` shows in the `n`-th evaluation that signals an error (R56, R57). -/
opaque Config.freeCorrOut (n : Nat) (c : Cmd) : BitVec 1

end Sys2Proof
end

