-- ==== Sys2Proof/Machine/State.lean ====
section
/-! DEFINITION. The state of the unit. It has no mutable state of its own (spec/10_state.md R5 to R9, R11): what a run can
see are its ports (R12), so State holds the values on the ports, as the host leaves them (inputs) and samples them (outputs)
at the end of an evaluation (R71). The ROMs are constants and stand in `Config`, not here (R10). -/

namespace Sys2Proof.Machine

/-- The exceptions of R55, exactly two (93 U9). The evaluation function answers with one (`Except.error`); the step goes on
from it, with its code on `err_out` and free data outputs (R59, R60; log 1), so `step` itself never stops with one. -/
inductive Fault where
  /-- Code 1: raised by LZC, HSB, ILOG10.W, ILOG10.D, ILOG10.Q, ILOG10.L when X = 0 (R56). Safe: no data value comes with it. -/
  | domainError
  /-- Code 2: raised by ROMT when X > 9 and by ROMB when X > 31 (R57). Safe: no data value comes with it. -/
  | indexError
deriving DecidableEq, Repr

/-- Why a step could answer nothing. No operation of the unit is ever refused (R30). -/
inductive Refusal where
  /-- An instruction without a meaning, raised by no arm of `exec` here. Safe: the run stops. -/
  | notModelled (mnemonic : String)
deriving DecidableEq, Repr

/-- The three data outputs of a valid evaluation (R12). -/
structure Outputs where
  r : Word64
  guess : BitVec 4
  corr : BitVec 1
deriving DecidableEq, Repr

/-- What the host gets back from an evaluation: `err_out`, always meaningful, and the data outputs only when it is 0 (R71). -/
structure Sample where
  err : BitVec 2
  data : Option Outputs
deriving DecidableEq, Repr

/-- The ports (R12) and one field of the model's own. -/
structure State where
  /-- Input port `op[2:0]`. -/
  op : Op
  /-- Input port `x_in[31:0]`. -/
  xIn : Word32
  /-- Output port `r_out[63:0]`. -/
  rOut : Word64
  /-- Output port `guess_out[3:0]`. -/
  guessOut : BitVec 4
  /-- Output port `corr_out`. -/
  corrOut : BitVec 1
  /-- Output port `err_out[1:0]`. -/
  errOut : BitVec 2
  /-- The MODEL's own field (log 2): how many evaluations have signalled an error, the index of the next free value. -/
  draws : Nat
deriving DecidableEq, Repr

/-- The unit before its first evaluation. R13 and R66: nothing has a reset value and there is no reset. DESIGN CHOICE (log 3):
the inputs are 0; `err_out` is then 1, since R13 makes it the function of the inputs and LZC 0 is a DomainError; the data
outputs, unspecified by R56, are 0; no free value has been drawn. -/
def State.reset : State where
  op := 0
  xIn := 0
  rOut := 0
  guessOut := 0
  corrOut := 0
  errOut := 1
  draws := 0

end Sys2Proof.Machine
end

