-- ==== Sys2Proof/Machine/Operands.lean ====
section
/-! DEFINITION. The forms of the one operand X (spec/30_encoding.md R29): an operand with the precondition X ≠ 0, an index into
a table, and the operand as ILOG10.Q prepares it for its guess. -/

namespace Sys2Proof.Machine

/-- `if X == 0 then raise DomainError(X)`, the first line of R35, R36 and R45 to R48. -/
def requireNonzero (x : Word32) : Except Fault NonZero :=
  if h : x = 0 then .error .domainError else .ok ⟨x, h⟩

/-- `if X > depth - 1 then raise IndexError(X)`, the first line of R39 and R40: the whole 32-bit X is the index (R29). -/
def requireIndex (depth : Nat) (x : Word32) : Except Fault Nat :=
  if x.toNat < depth then .ok x.toNat else .error .indexError

/-- `(X | 7) >> 1` of R47. -/
def quaternicWord (x : Word32) : Word32 :=
  (x ||| 7) >>> 1

/-- R47: x' is never 0. -/
theorem quaternicWord_ne_zero (x : Word32) : quaternicWord x ≠ 0 := by
  intro h
  have h1 : (quaternicWord x).getLsbD 0 = true := by simp [quaternicWord]
  simp [h] at h1

/-- The word whose highest set bit ILOG10.Q scales (R47). -/
def quaternicOperand (x : Word32) : NonZero :=
  ⟨quaternicWord x, quaternicWord_ne_zero x⟩

end Sys2Proof.Machine
end

