-- ==== Sys2Proof/Syntax.lean ====
section
/-! DEFINITION. The eight operations of spec/30_encoding.md R28 with their one operand (R29), and the commands of the
textual form (R32) with the pseudo-operations of R33. -/

namespace Sys2Proof

/-- One evaluation: an operation and its operand X, the 32 bits of `x_in` (R28, R29). -/
inductive Instr where
  /-- LZC, op 0 (R35). -/
  | lzc (x : Word32)
  /-- HSB, op 1 (R36). -/
  | hsb (x : Word32)
  /-- ILOG10.W, op 2, "warren" (R45). -/
  | ilog10W (x : Word32)
  /-- ILOG10.D, op 3, "dga" (R46). -/
  | ilog10D (x : Word32)
  /-- ILOG10.Q, op 4, "quaternic" (R47). -/
  | ilog10Q (x : Word32)
  /-- ILOG10.L, op 5, "willet" (R48). -/
  | ilog10L (x : Word32)
  /-- ROMT, op 6 (R39). -/
  | romt (x : Word32)
  /-- ROMB, op 7 (R40). -/
  | romb (x : Word32)
deriving DecidableEq, Repr

/-- The names a source command may use: the eight mnemonics of R28 and the six pseudo-operations of R33. -/
inductive Mnemonic where
  | lzc | hsb | ilog10W | ilog10D | ilog10Q | ilog10L | romt | romb
  | ilog10 | warren | dga | quaternic | willet | clz
deriving DecidableEq, Repr

/-- A command as it is written: a mnemonic and an unsigned integer literal (R32). The literal is a number that the source
may write too large; `SourceCmd.wf` says which are commands. -/
structure SourceCmd where
  mnemonic : Mnemonic
  operand : Nat
deriving DecidableEq, Repr

/-- The operand X of an evaluation (R29). -/
def Instr.operand : Instr → Word32
  | .lzc x => x
  | .hsb x => x
  | .ilog10W x => x
  | .ilog10D x => x
  | .ilog10Q x => x
  | .ilog10L x => x
  | .romt x => x
  | .romb x => x

/-- The mnemonic of R28 under which an evaluation is written. -/
def Instr.mnemonic : Instr → Mnemonic
  | .lzc _ => .lzc
  | .hsb _ => .hsb
  | .ilog10W _ => .ilog10W
  | .ilog10D _ => .ilog10D
  | .ilog10Q _ => .ilog10Q
  | .ilog10L _ => .ilog10L
  | .romt _ => .romt
  | .romb _ => .romb

/-- An evaluation as a source command. -/
def Instr.toSource (i : Instr) : SourceCmd :=
  ⟨i.mnemonic, i.operand.toNat⟩

end Sys2Proof
end

