-- ==== Sys2Proof/WellFormed.lean ====
section
/-! DEFINITION. What is a command at all. The one check of the spec is on the literal of a source command (R32); every pair
of an operation and a 32-bit operand is a command (R30), so no `Instr` fails it. A bad OPERAND (0, or an index outside a
table) is not ill-formed: it is an evaluation that signals an error (R30, R55). -/

namespace Sys2Proof

/-- R32: the operand literal is in 0..4294967295. -/
def SourceCmd.wf (c : SourceCmd) : Bool :=
  decide (c.operand ≤ 4294967295)

/-- An evaluation is well-formed when the command it is written as is. -/
def Instr.wf (i : Instr) : Bool :=
  i.toSource.wf

end Sys2Proof
end

