-- ==== Sys2Proof/Decode.lean ====
section
/-! DEFINITION. The command word of spec/30_encoding.md: bits 34:32 are `op`, bits 31:0 are `x` (R27), and the eight values
of `op` select the eight operations (R28). The decoder is total on command words (R30); a number of more than 35 bits is no
command word and is rejected by name. -/

namespace Sys2Proof

/-- Why a number is rejected before decoding. No command word is ever rejected (R30). -/
inductive DecodeError where
  /-- The number does not fit the 35 bits of a command word (R27). -/
  | notACommandWord
deriving DecidableEq, Repr

/-- The operation that the ports `op` and `x_in` select (R28, R29). -/
def decodePorts (op : Op) (x : Word32) : Instr :=
  match op.toFin with
  | 0 => .lzc x
  | 1 => .hsb x
  | 2 => .ilog10W x
  | 3 => .ilog10D x
  | 4 => .ilog10Q x
  | 5 => .ilog10L x
  | 6 => .romt x
  | 7 => .romb x

/-- The operation a command word selects (R27, R28, R30). -/
def decodeCmd (c : Cmd) : Instr :=
  decodePorts (c.extractLsb' 32 3) (c.extractLsb' 0 32)

/-- Decoding any number: the operation where it is a command word, else the rejection. -/
def decodeWord (w : Nat) : Except DecodeError Instr :=
  if w < 2 ^ 35 then .ok (decodeCmd (BitVec.ofNat 35 w)) else .error .notACommandWord

/-- The code of an operation on `op` (R28). -/
def opcode : Instr → Op
  | .lzc _ => 0
  | .hsb _ => 1
  | .ilog10W _ => 2
  | .ilog10D _ => 3
  | .ilog10Q _ => 4
  | .ilog10L _ => 5
  | .romt _ => 6
  | .romb _ => 7

/-- The command word of an evaluation, `cmd = {OP, X}` (R27). -/
def encode (i : Instr) : Cmd :=
  opcode i ++ i.operand

/-- The decoder as the host asks it: the number `w`, every bit at or above `nbits` being 0 (log 9). -/
def decodeTableWord (nbits w : Nat) : Option Instr :=
  (decodeWord (w % 2 ^ nbits)).toOption

end Sys2Proof
end

