-- ==== Sys2Proof/Machine/Rom.lean ====
section
/-! DEFINITION. The contents of the two ROMs and of the mask, and the read primitive of spec/20_memory.md R20. Nothing writes
them (R19); they hold these values at every moment (R67). -/

namespace Sys2Proof.Machine

/-- ROM `T` (R15): `T[i]` is the largest number of i + 1 decimal digits, the last entry saturated. -/
def thresholdWords : Vector Word32 10 :=
  #v[9, 99, 999, 9999, 99999, 999999, 9999999, 99999999, 999999999, 4294967295]

/-- ROM `B` (R17): word L serves the operands whose leading-zero count is L. -/
def biasWords : Vector Word64 32 :=
  #v[0x0000000900000000, 0x0000000900000000, 0x00000008C4653600, 0x0000000800000000,
     0x0000000800000000, 0x00000007FA0A1F00, 0x0000000700000000, 0x0000000700000000,
     0x00000006FF676980, 0x0000000600000000, 0x0000000600000000, 0x0000000600000000,
     0x00000005FFF0BDC0, 0x0000000500000000, 0x0000000500000000, 0x00000004FFFE7960,
     0x0000000400000000, 0x0000000400000000, 0x00000003FFFFD8F0, 0x0000000300000000,
     0x0000000300000000, 0x0000000300000000, 0x00000002FFFFFC18, 0x0000000200000000,
     0x0000000200000000, 0x00000001FFFFFF9C, 0x0000000100000000, 0x0000000100000000,
     0x00000000FFFFFFF6, 0x0000000000000000, 0x0000000000000000, 0x0000000000000000]

/-- `DGA_MASK` (R46, R2). -/
def dgaMaskWord : Word32 :=
  0x09224892

/-- The unit of this spec (R2). -/
def l10u : Config where
  threshold := thresholdWords
  bias := biasWords
  dgaMask := dgaMaskWord

/-- `MemRead(T, i)` (R20). Outside 0..9 the primitive is not defined and no rule applies it there; the model answers
IndexError (log 6). -/
def memReadT (cfg : Config) (i : Nat) : Except Fault Word32 :=
  match cfg.threshold[i]? with
  | some w => .ok w
  | none => .error .indexError

/-- `MemRead(B, i)` (R20). Outside 0..31 the primitive is not defined and no rule applies it there; the model answers
IndexError (log 6). -/
def memReadB (cfg : Config) (i : Nat) : Except Fault Word64 :=
  match cfg.bias[i]? with
  | some w => .ok w
  | none => .error .indexError

end Sys2Proof.Machine
end

