-- ==== Sys2Proof/Machine/Flags.lean ====
section
/-! DEFINITION. The outputs that look like flags (spec/10_state.md R8): the comparator with the guess (42_digit_count.md R43)
and the error code (60_exceptions.md R55). The unit stores no flag. -/

namespace Sys2Proof.Machine

/-- The data outputs of an operation that has no guess and makes no comparison: `guess_out` and `corr_out` are 0
(R38, R41, R48). -/
def Outputs.plain (r : Word64) : Outputs :=
  ⟨r, 0, 0⟩

/-- The data outputs of a guess `g` and a comparator output `c`: `r_out` is g + c (R43, R34). -/
def Outputs.corrected (g : Nat) (c : Bool) : Outputs :=
  ⟨BitVec.ofNat 64 (g + c.toNat), BitVec.ofNat 4 g, BitVec.ofBool c⟩

/-- The correction step (R43): one read of `T` at the guess, one unsigned strict greater-than of the operand. -/
def correct (cfg : Config) (g : Nat) (x : Word32) : Except Fault Outputs := do
  let t ← memReadT cfg g
  return .corrected g (BitVec.ult t x)

/-- The code of an exception on `err_out` (R55). -/
def errCode : Fault → BitVec 2
  | .domainError => 1
  | .indexError => 2

/-- The code of a valid evaluation (R55). -/
def errNone : BitVec 2 :=
  0

/-- What a code on `err_out` means: a valid evaluation or an exception; code 3 is refused as impossible (R55, 93 U9). -/
def errMeaning (e : BitVec 2) : Option (Except Fault Unit) :=
  match e.toFin with
  | 0 => some (.ok ())
  | 1 => some (.error .domainError)
  | 2 => some (.error .indexError)
  | 3 => none

end Sys2Proof.Machine
end

