-- ==== Sys2Proof/Machine/Ops.lean ====
section
/-! DEFINITION. The named operations over State: what the host does to the ports (spec/70_reset_and_hazards.md R71), and how an
evaluation ends, valid or with an exception (60_exceptions.md R55 to R60). -/

namespace Sys2Proof.Machine

/-- The host places the pair (OP, X) on the inputs (R71). Nothing else changes: the outputs follow with the step. -/
def State.present (i : Instr) (s : State) : State :=
  { s with op := opcode i, xIn := i.operand }

/-- The command word on the inputs, `{OP, X}` (R27). -/
def State.command (s : State) : Cmd :=
  s.op ++ s.xIn

/-- The host samples `err_out`, and the data outputs only if it is 0 (R71). -/
def State.sample (s : State) : Sample :=
  ⟨s.errOut, if s.errOut = errNone then some ⟨s.rOut, s.guessOut, s.corrOut⟩ else none⟩

/-- A valid evaluation drives its data outputs and error code 0; all outputs are written together (00_scope.md section 6). -/
def State.drive (o : Outputs) (s : State) : State :=
  { s with rOut := o.r, guessOut := o.guess, corrOut := o.corr, errOut := errNone }

/-- Taking an exception: the code on `err_out` and unspecified data outputs, a fresh draw for command word `c` (log 2), are its
whole effect (R56, R57, R59). Nothing is saved and nothing jumps, so there is no return from one either (R60). -/
def State.raise (f : Fault) (c : Cmd) (s : State) : State :=
  { s with
    rOut := Config.freeROut s.draws c
    guessOut := Config.freeGuessOut s.draws c
    corrOut := Config.freeCorrOut s.draws c
    errOut := errCode f
    draws := s.draws + 1 }

/-- The end of the evaluation of command word `c`: the unit goes on whichever way it went (R59, R60; log 1). -/
def conclude (c : Cmd) (e : Except Fault Outputs) (s : State) : Host.Outcome State Fault Refusal :=
  match e with
  | .ok o => .next (s.drive o)
  | .error f => .next (s.raise f c)

end Sys2Proof.Machine
end

