-- ==== Sys2Proof/Machine/BitPrimitives.lean ====
section
/-! DEFINITION. LZC and HSB (spec/40_bit_primitives.md). They read neither ROM (R38). -/

namespace Sys2Proof.Machine

/-- R35. -/
def evalLzc (x : Word32) : Except Fault Outputs := do
  let v ← requireNonzero x
  return .plain (BitVec.ofNat 64 (clz32 v).val)

/-- R36. -/
def evalHsb (x : Word32) : Except Fault Outputs := do
  let v ← requireNonzero x
  return .plain (BitVec.ofNat 64 (msb32 v).val)

/-- LZC X. -/
def execLzc (x : Word32) (s : State) : Host.Outcome State Fault Refusal :=
  conclude (encode (.lzc x)) (evalLzc x) s

/-- HSB X. -/
def execHsb (x : Word32) (s : State) : Host.Outcome State Fault Refusal :=
  conclude (encode (.hsb x)) (evalHsb x) s

end Sys2Proof.Machine
end

