-- ==== Sys2Proof/Machine/DigitCount.lean ====
section
/-! DEFINITION. The four digit-count operations (spec/42_digit_count.md): three guesses, each corrected by the one comparator of
R43, and the wide addition of R48. -/

namespace Sys2Proof.Machine

/-- `g = (9 * h) >> 5` of R45. -/
def guessW (v : NonZero) : Nat :=
  (9 * (msb32 v).val) >>> 5

/-- `g = popcount32(DGA_MASK >> l)` of R46, for the mask of the configuration. -/
def guessD (mask : Word32) (v : NonZero) : Nat :=
  popcount32 (mask >>> (clz32 v).val)

/-- `g = (5 * hq) >> 4` of R47, from the operand as R47 prepares it. -/
def guessQ (v : NonZero) : Nat :=
  (5 * (msb32 (quaternicOperand v.val)).val) >>> 4

/-- R45. -/
def evalIlog10W (cfg : Config) (x : Word32) : Except Fault Outputs := do
  let v ← requireNonzero x
  correct cfg (guessW v) x

/-- R46. -/
def evalIlog10D (cfg : Config) (x : Word32) : Except Fault Outputs := do
  let v ← requireNonzero x
  correct cfg (guessD cfg.dgaMask v) x

/-- R47. The precondition is tested although the datapath is defined at 0, and the comparison is of the original X. -/
def evalIlog10Q (cfg : Config) (x : Word32) : Except Fault Outputs := do
  let v ← requireNonzero x
  correct cfg (guessQ v) x

/-- R48: the 64-bit sum of the operand and the bias word, shifted right by 32. -/
def evalIlog10L (cfg : Config) (x : Word32) : Except Fault Outputs := do
  let v ← requireNonzero x
  let b ← memReadB cfg (clz32 v).val
  return .plain ((x.setWidth 64 + b) >>> 32)

/-- ILOG10.W X. -/
def execIlog10W (x : Word32) (s : State) : Host.Outcome State Fault Refusal :=
  conclude (encode (.ilog10W x)) (evalIlog10W l10u x) s

/-- ILOG10.D X. -/
def execIlog10D (x : Word32) (s : State) : Host.Outcome State Fault Refusal :=
  conclude (encode (.ilog10D x)) (evalIlog10D l10u x) s

/-- ILOG10.Q X. -/
def execIlog10Q (x : Word32) (s : State) : Host.Outcome State Fault Refusal :=
  conclude (encode (.ilog10Q x)) (evalIlog10Q l10u x) s

/-- ILOG10.L X. -/
def execIlog10L (x : Word32) (s : State) : Host.Outcome State Fault Refusal :=
  conclude (encode (.ilog10L x)) (evalIlog10L l10u x) s

end Sys2Proof.Machine
end

