-- ==== Sys2Proof/Machine/TableAccess.lean ====
section
/-! DEFINITION. The table accessors ROMT and ROMB (spec/41_threshold_rom.md). -/

namespace Sys2Proof.Machine

/-- R39: a word of `T`, zero-extended (R34). -/
def evalRomt (cfg : Config) (x : Word32) : Except Fault Outputs := do
  let i ← requireIndex 10 x
  let w ← memReadT cfg i
  return .plain (w.setWidth 64)

/-- R40: a word of `B`, all 64 bits (R34). -/
def evalRomb (cfg : Config) (x : Word32) : Except Fault Outputs := do
  let i ← requireIndex 32 x
  let w ← memReadB cfg i
  return .plain w

/-- ROMT X. -/
def execRomt (x : Word32) (s : State) : Host.Outcome State Fault Refusal :=
  conclude (encode (.romt x)) (evalRomt l10u x) s

/-- ROMB X. -/
def execRomb (x : Word32) (s : State) : Host.Outcome State Fault Refusal :=
  conclude (encode (.romb x)) (evalRomb l10u x) s

end Sys2Proof.Machine
end

