-- ==== Sys2Proof/Machine/Evaluate.lean ====
section
/-! DEFINITION. The unit as the pure function that spec/70_reset_and_hazards.md R71 calls `eval`: from the constants and a pair
(OP, X) to a fault or the data outputs. A run uses it through `exec`, one meaning an operation. -/

namespace Sys2Proof.Machine

/-- `eval : Config -> Op -> Word32 -> Fault + Outputs` (R71). -/
def evalInstr (cfg : Config) : Instr → Except Fault Outputs
  | .lzc x => evalLzc x
  | .hsb x => evalHsb x
  | .ilog10W x => evalIlog10W cfg x
  | .ilog10D x => evalIlog10D cfg x
  | .ilog10Q x => evalIlog10Q cfg x
  | .ilog10L x => evalIlog10L cfg x
  | .romt x => evalRomt cfg x
  | .romb x => evalRomb cfg x

end Sys2Proof.Machine
end

