-- ==== Sys2Proof/Machine/Dispatch.lean ====
section
/-! DEFINITION. One arm per operation of spec/30_encoding.md R28, each one call of its meaning. -/

namespace Sys2Proof.Machine

def exec (i : Instr) (s : State) : Host.Outcome State Fault Refusal :=
  match i with
  | .lzc x => Sys2Proof.Machine.execLzc x s
  | .hsb x => Sys2Proof.Machine.execHsb x s
  | .ilog10W x => Sys2Proof.Machine.execIlog10W x s
  | .ilog10D x => Sys2Proof.Machine.execIlog10D x s
  | .ilog10Q x => Sys2Proof.Machine.execIlog10Q x s
  | .ilog10L x => Sys2Proof.Machine.execIlog10L x s
  | .romt x => Sys2Proof.Machine.execRomt x s
  | .romb x => Sys2Proof.Machine.execRomb x s

end Sys2Proof.Machine
end

