-- ==== Sys2Proof/Machine/Step.lean ====
section
/-! DEFINITION. One step is one evaluation of the pair on the inputs (spec/10_state.md R7, 70_reset_and_hazards.md R71): there is
no program counter and no fetch from memory. -/

namespace Sys2Proof.Machine

/-- One evaluation of the command on the inputs. -/
def step (s : State) : Host.Outcome State Fault Refusal :=
  exec (decodeCmd s.command) s

/-- The command word `w` placed on the inputs, every bit at or above `nbits` being 0 (log 4): bits 34:32 on `op`, bits 31:0 on
`x_in`. This stands for the host's act of R71; bits above 34 have no port. -/
def State.withFetchWord (s : State) (nbits w : Nat) : State :=
  { s with op := BitVec.ofNat 3 (w % 2 ^ nbits / 2 ^ 32), xIn := BitVec.ofNat 32 (w % 2 ^ nbits) }

end Sys2Proof.Machine
end

