-- ==== Sys2Proof/Machine/Session.lean ====
section
/-! DEFINITION. The host's side (spec/70_reset_and_hazards.md R71): one evaluation as the host makes it, and a sequence of
them, which is all that a "program" of this unit is (95_test_vectors.md section 3). The commands are the host's, so they are
an argument here and no field of State (R7, R11; log 7). -/

namespace Sys2Proof.Machine

/-- One evaluation: the host presents a command and the unit evaluates it. -/
def evaluate (i : Instr) (s : State) : Host.Outcome State Fault Refusal :=
  step (s.present i)

/-- A sequence of evaluations: what the host samples at the end of each, in order, and the ports at the end. -/
def session : List Instr → State → Host.Outcome (List Sample × State) Fault Refusal
  | [], s => .next ([], s)
  | i :: rest, s =>
    match evaluate i s with
    | .next t =>
      match session rest t with
      | .next (seen, u) => .next (t.sample :: seen, u)
      | .fault f => .fault f
      | .refused r => .refused r
    | .fault f => .fault f
    | .refused r => .refused r

end Sys2Proof.Machine
end

