-- ==== Sys2Proof/Machine/Assembler.lean ====
section
/-! DEFINITION. The textual form of a command (spec/30_encoding.md R32), the pseudo-operations (R33), and how command words and
results are written (R27, R32). It is notation of the spec, no part of the hardware. Text is a list of characters; what R32
leaves open about spacing and letter case is in log 8. -/

namespace Sys2Proof.Machine

/-- Why a line of source is no command. -/
inductive AsmError where
  /-- The name is no mnemonic of R28 and no pseudo-operation of R33 (both are written in upper case). -/
  | unknownMnemonic
  /-- The operand is no unsigned integer literal, decimal or `0x` hexadecimal. -/
  | badLiteral
  /-- The operand is above 4294967295. -/
  | operandTooLarge
  /-- The line is not `MNEMONIC operand`. -/
  | badShape
deriving DecidableEq, Repr

/-- How a mnemonic is written; the dot is part of the name (R28, R32, R33). -/
def mnemonicName : Mnemonic → List Char
  | .lzc => ['L', 'Z', 'C']
  | .hsb => ['H', 'S', 'B']
  | .ilog10W => ['I', 'L', 'O', 'G', '1', '0', '.', 'W']
  | .ilog10D => ['I', 'L', 'O', 'G', '1', '0', '.', 'D']
  | .ilog10Q => ['I', 'L', 'O', 'G', '1', '0', '.', 'Q']
  | .ilog10L => ['I', 'L', 'O', 'G', '1', '0', '.', 'L']
  | .romt => ['R', 'O', 'M', 'T']
  | .romb => ['R', 'O', 'M', 'B']
  | .ilog10 => ['I', 'L', 'O', 'G', '1', '0']
  | .warren => ['W', 'A', 'R', 'R', 'E', 'N']
  | .dga => ['D', 'G', 'A']
  | .quaternic => ['Q', 'U', 'A', 'T', 'E', 'R', 'N', 'I', 'C']
  | .willet => ['W', 'I', 'L', 'L', 'E', 'T']
  | .clz => ['C', 'L', 'Z']

/-- Every name a source command may use. -/
def allMnemonics : List Mnemonic :=
  [.lzc, .hsb, .ilog10W, .ilog10D, .ilog10Q, .ilog10L, .romt, .romb, .ilog10, .warren, .dga, .quaternic, .willet, .clz]

/-- The mnemonic of a name. -/
def lookupMnemonic (name : List Char) : Option Mnemonic :=
  allMnemonics.find? fun m => mnemonicName m == name

/-- Each mnemonic with its operand expands to exactly one command (R33). -/
def expand : Mnemonic → Word32 → Instr
  | .lzc, x => .lzc x
  | .hsb, x => .hsb x
  | .ilog10W, x => .ilog10W x
  | .ilog10D, x => .ilog10D x
  | .ilog10Q, x => .ilog10Q x
  | .ilog10L, x => .ilog10L x
  | .romt, x => .romt x
  | .romb, x => .romb x
  | .ilog10, x => .ilog10W x
  | .warren, x => .ilog10W x
  | .dga, x => .ilog10D x
  | .quaternic, x => .ilog10Q x
  | .willet, x => .ilog10L x
  | .clz, x => .lzc x

/-- The evaluation a source command stands for. -/
def assemble (c : SourceCmd) : Except AsmError Instr :=
  if c.wf then .ok (expand c.mnemonic (BitVec.ofNat 32 c.operand)) else .error .operandTooLarge

/-- The value of a digit in a base up to 16. -/
def digitValue (base : Nat) (c : Char) : Option Nat :=
  let v :=
    if '0' ≤ c ∧ c ≤ '9' then c.toNat - '0'.toNat
    else if 'a' ≤ c ∧ c ≤ 'f' then c.toNat - 'a'.toNat + 10
    else if 'A' ≤ c ∧ c ≤ 'F' then c.toNat - 'A'.toNat + 10
    else base
  if v < base then some v else none

/-- The value of further digits after those read as `acc`. -/
def digitsValue (base : Nat) : Nat → List Char → Option Nat
  | acc, [] => some acc
  | acc, c :: rest =>
    match digitValue base c with
    | some d => digitsValue base (acc * base + d) rest
    | none => none

/-- An unsigned integer literal, decimal or `0x` hexadecimal (R32). -/
def literalValue : List Char → Option Nat
  | [] => none
  | '0' :: 'x' :: digits => if digits.isEmpty then none else digitsValue 16 0 digits
  | digits => digitsValue 10 0 digits

/-- The words of a line, `word` being the letters of the one begun, last letter first; blanks and tabs separate words. -/
def wordsFrom (word : List Char) : List Char → List (List Char)
  | [] => if word.isEmpty then [] else [word.reverse]
  | c :: rest =>
    if c = ' ' ∨ c = '\t' then
      if word.isEmpty then wordsFrom [] rest else word.reverse :: wordsFrom [] rest
    else wordsFrom (c :: word) rest

/-- One line of source (R32): a command, or nothing but a comment, which runs from `;` to the end of the line. -/
def parseLine (line : List Char) : Except AsmError (Option SourceCmd) :=
  match wordsFrom [] (line.takeWhile (· != ';')) with
  | [] => .ok none
  | [name, operand] =>
    match lookupMnemonic name with
    | none => .error .unknownMnemonic
    | some m =>
      match literalValue operand with
      | none => .error .badLiteral
      | some v => if (SourceCmd.mk m v).wf then .ok (some ⟨m, v⟩) else .error .operandTooLarge
  | _ => .error .badShape

/-- The commands of a source text, one a line. -/
def assembleLines : List (List Char) → Except AsmError (List Instr)
  | [] => .ok []
  | line :: rest => do
    match ← parseLine line with
    | none => assembleLines rest
    | some c =>
      let i ← assemble c
      let more ← assembleLines rest
      return i :: more

/-- One hexadecimal digit, upper case as the spec writes it. -/
def hexDigit (n : Nat) : Char :=
  if n < 10 then Char.ofNat (n + '0'.toNat) else Char.ofNat (n - 10 + 'A'.toNat)

/-- The last k hexadecimal digits of a number, the most significant first. -/
def hexDigits : Nat → Nat → List Char
  | 0, _ => []
  | k + 1, n => hexDigits k (n / 16) ++ [hexDigit (n % 16)]

/-- A command word as it is written: nine hexadecimal digits, the first being OP (R27). -/
def commandText (c : Cmd) : List Char :=
  ['0', 'x'] ++ hexDigits 9 c.toNat

/-- A command in the textual form, its operand as a hexadecimal literal of eight digits (R32). -/
def sourceText (i : Instr) : List Char :=
  mnemonicName i.mnemonic ++ [' ', '0', 'x'] ++ hexDigits 8 i.operand.toNat

/-- What a listing shows after `=>` (R32): all four outputs of a valid evaluation, the code alone where the data outputs are
unspecified. -/
def resultText (o : Sample) : List Char :=
  match o.data with
  | some d =>
    ['r', '='] ++ Nat.toDigits 10 d.r.toNat ++ [' ', 'g', 'u', 'e', 's', 's', '='] ++ Nat.toDigits 10 d.guess.toNat ++
      [' ', 'c', 'o', 'r', 'r', '='] ++ Nat.toDigits 10 d.corr.toNat ++ [' ', 'e', 'r', 'r', '='] ++ Nat.toDigits 10 o.err.toNat
  | none => ['e', 'r', 'r', '='] ++ Nat.toDigits 10 o.err.toNat

/-- A line of a listing: a command with its operand in decimal, and its result (R32). -/
def listingText (c : SourceCmd) (o : Sample) : List Char :=
  mnemonicName c.mnemonic ++ [' '] ++ Nat.toDigits 10 c.operand ++ [' ', '=', '>', ' '] ++ resultText o

end Sys2Proof.Machine
end

