-- ==== Sys2Proof/Safety.lean ====
section
/-! DEFINITION. The terms in which claims about runs are made: the numbers the spec defines mathematically (spec/00_scope.md
section 6.1), the decision procedure for errors (60_exceptions.md R58), and what the ports show when the outputs have settled
(10_state.md R12, R13), written from the rules and without the evaluation functions of Machine/. -/

namespace Sys2Proof

/-- `h = msb32(v)`: the unique h with 2^h ≤ v < 2^(h+1). -/
abbrev IsTopBit (v h : Nat) : Prop :=
  2 ^ h ≤ v ∧ v < 2 ^ (h + 1)

/-- `k = ilog10(v)`: the unique k with 10^k ≤ v < 10^(k+1). -/
abbrev IsDigitCount (v k : Nat) : Prop :=
  10 ^ k ≤ v ∧ v < 10 ^ (k + 1)

/-- The decision procedure of R58, with the codes of R55. -/
def errorRule (op : Op) (x : Word32) : BitVec 2 :=
  if op.toNat ≤ 5 then (if x = 0 then 1 else 0)
  else if op.toNat = 6 then (if x.toNat > 9 then 2 else 0)
  else (if x.toNat > 31 then 2 else 0)

/-- `T[g]` as a number, from its definition in R15: the largest number of g + 1 decimal digits, saturated. -/
def thresholdNumber (g : Nat) : Nat :=
  if g < 9 then 10 ^ (g + 1) - 1 else 4294967295

/-- `B[l]` as a number, from the construction of R17; g is the digit count of the smallest operand the word serves. -/
def biasNumber (l g : Nat) : Nat :=
  if g ≤ 8 ∧ 10 ^ (g + 1) < 2 ^ (32 - l) then (g + 1) * 2 ^ 32 - 10 ^ (g + 1) else g * 2 ^ 32

/-- What R43 makes of a guess: the outputs of a digit-count operation with a comparator. -/
def guessedOutputs (x k g : Nat) (r : Word64) (guess : BitVec 4) (corr : BitVec 1) : Prop :=
  r.toNat = k ∧ guess.toNat = g ∧ corr.toNat = (if thresholdNumber g < x then 1 else 0) ∧ k = g + corr.toNat

/-- The data outputs of a valid evaluation, operation by operation, in the spec's mathematical terms (R35, R36, R39, R40, R42,
R45 to R48). -/
def dataRule (op : Op) (x : Nat) (r : Word64) (guess : BitVec 4) (corr : BitVec 1) : Prop :=
  match op.toFin with
  | 0 => (∃ h, IsTopBit x h ∧ h + r.toNat = 31) ∧ guess = 0 ∧ corr = 0
  | 1 => IsTopBit x r.toNat ∧ guess = 0 ∧ corr = 0
  | 2 => ∃ h k, IsTopBit x h ∧ IsDigitCount x k ∧ guessedOutputs x k (9 * h / 32) r guess corr
  | 3 => ∃ h g k, IsTopBit x h ∧ IsDigitCount (2 ^ h) g ∧ IsDigitCount x k ∧ guessedOutputs x k g r guess corr
  | 4 => ∃ h k, IsTopBit x h ∧ IsDigitCount x k ∧ guessedOutputs x k (5 * (max h 2 - 1) / 16) r guess corr
  | 5 => IsDigitCount x r.toNat ∧ guess = 0 ∧ corr = 0
  | 6 => r.toNat = thresholdNumber x ∧ guess = 0 ∧ corr = 0
  | 7 => (∃ g, IsDigitCount (2 ^ (31 - x)) g ∧ r.toNat = biasNumber x g) ∧ guess = 0 ∧ corr = 0

/-- The outputs are the function of the inputs (R12, R13): the error code by R58 and, where it is 0, the data outputs by the
operation's rule. Where it is not 0 the data outputs are unspecified and nothing is said of them (R56, R57). -/
def Machine.State.settled (s : Machine.State) : Prop :=
  s.errOut = errorRule s.op s.xIn ∧
    (s.errOut = 0 → dataRule s.op s.xIn.toNat s.rOut s.guessOut s.corrOut)

/-- Executing `i` at `s` signals the error `code`: the unit goes on to a next state that shows the code, gives the host no data
(R71), and leaves the inputs as they were (R59). Nothing is said of the unspecified data outputs. -/
def Machine.signals (i : Instr) (s : Machine.State) (code : BitVec 2) : Prop :=
  ∃ t, Machine.exec i s = .next t ∧ t.errOut = code ∧ t.sample = ⟨code, none⟩ ∧ t.op = s.op ∧ t.xIn = s.xIn

/-- A command that signals no error (R58). -/
def Instr.accepted (i : Instr) : Prop :=
  errorRule (opcode i) i.operand = 0

/-- A safe sequence of commands: the host has tested every operand itself before presenting it (R71). -/
def safeSession (cmds : List Instr) : Prop :=
  ∀ i, i ∈ cmds → i.accepted

end Sys2Proof
end

