-- ==== Sys2Proof/Certificates/Slice0/Obligations.lean ====
section
/-! DEFINITION. The statements for the provers. Each docstring names the rule of spec/ it formalises. The word "settled" and the
numbers `IsTopBit`, `IsDigitCount`, `thresholdNumber`, `biasNumber` are those of Safety.lean. A state's fields that a conclusion
`exec i s = .next (s with …)` does not list are left as they were, which is the instruction's frame: the unit has no memory that
can be written and no register (R5, R6, R19), so the ports and the model's counter of free values are all there is. -/

open Sys2Proof Sys2Proof.Machine

/-! ## Encoding -/

/-- R27: `cmd = OP * 2^32 + X`, written as nine hexadecimal digits, the first being OP. -/
def Obligations.CommandWordIsOpThenOperand : Prop :=
  ∀ i : Instr,
    (encode i).toNat = (opcode i).toNat * 2 ^ 32 + i.operand.toNat ∧
    (encode i).extractLsb' 32 3 = opcode i ∧
    (encode i).extractLsb' 0 32 = i.operand ∧
    commandText (encode i) =
      ['0', 'x'] ++ hexDigit (opcode i).toNat :: hexDigits 8 i.operand.toNat

/-- R30: every one of the 2^35 command words selects exactly one operation, and only the operand can go wrong. -/
def Obligations.EveryCommandWordSelectsOneOperation : Prop :=
  (∀ i : Instr, decodeCmd (encode i) = i) ∧
  (∀ c : Cmd, encode (decodeCmd c) = c) ∧
  (∀ (c : Cmd) (f : Fault), evalInstr l10u (decodeCmd c) = .error f →
    (f = .domainError ∧ (c.extractLsb' 32 3).toNat ≤ 5 ∧ c.extractLsb' 0 32 = 0) ∨
    (f = .indexError ∧ c.extractLsb' 32 3 = 6 ∧ 9 < (c.extractLsb' 0 32).toNat) ∨
    (f = .indexError ∧ c.extractLsb' 32 3 = 7 ∧ 31 < (c.extractLsb' 0 32).toNat))

/-- 30_encoding.md section 2: operation n has match n * 2^32 and mask 0x700000000. -/
def Obligations.MaskSelectsTheOperation : Prop :=
  ∀ (c : Cmd) (n : Op),
    c &&& 0x700000000 = BitVec.ofNat 35 (n.toNat * 2 ^ 32) ↔ opcode (decodeCmd c) = n

/-- A number is rejected exactly when it does not fit a command word (30_encoding.md sections 1 and 4; log 9). -/
def Obligations.OnlyWiderNumbersAreRejected : Prop :=
  ∀ w : Nat,
    (decodeWord w = .error .notACommandWord ↔ 2 ^ 35 ≤ w) ∧
    (w < 2 ^ 35 → decodeWord w = .ok (decodeCmd (BitVec.ofNat 35 w)) ∧
      decodeTableWord 40 w = some (decodeCmd (BitVec.ofNat 35 w)))

/-- 95_test_vectors.md section 2.8: words written out from the encoding decode to their commands. -/
def Obligations.ListedCommandWordsDecode : Prop :=
  decodeCmd 0x00000270F = .lzc 9999 ∧
  decodeCmd 0x100000001 = .hsb 1 ∧
  decodeCmd 0x2000003E8 = .ilog10W 1000 ∧
  decodeCmd 0x3000003E8 = .ilog10D 1000 ∧
  decodeCmd 0x4000003E8 = .ilog10Q 1000 ∧
  decodeCmd 0x5000003E8 = .ilog10L 1000 ∧
  decodeCmd 0x600000009 = .romt 9 ∧
  decodeCmd 0x7FFFFFFFF = .romb 4294967295

/-- R29: the operand is the 32 bits of `x_in` as one number, and for ROMT and ROMB all of it is the index: an index with any
higher bit set is out of range and no alias. -/
def Obligations.WholeOperandIsTheIndex : Prop :=
  ∀ (x : Word32) (s : State),
    (∀ i : Instr, (s.present i).xIn = i.operand ∧ i.operand = (encode i).extractLsb' 0 32) ∧
    ((∃ t, exec (.romt x) s = .next t ∧ t.errOut = 0) ↔ x.toNat ≤ 9) ∧
    ((∃ t, exec (.romb x) s = .next t ∧ t.errOut = 0) ↔ x.toNat ≤ 31)

/-! ## A step -/

/-- One step is one evaluation of the command on the inputs: of the pair a host presents, of any pair on the ports, and of a
command word placed there (10_state.md section 1, 30_encoding.md section 1, 70_reset_and_hazards.md section 5). -/
def Obligations.StepRunsThePresentedCommand : Prop :=
  ∀ (i : Instr) (s : State),
    step (s.present i) = exec i (s.present i) ∧
    step s = exec (decodePorts s.op s.xIn) s ∧
    s.withFetchWord 40 (encode i).toNat = s.present i

/-- 70_reset_and_hazards.md section 5: executing an operation is evaluating the pure function `eval` on the unit's constants and
ending the evaluation with what it answers. -/
def Obligations.ExecutionIsTheEvaluation : Prop :=
  ∀ (i : Instr) (s : State), exec i s = conclude (encode i) (evalInstr l10u i) s

/-! ## The eight operations -/

/-- R35: LZC counts the zero bits before the first set bit. -/
def Obligations.LzcCountsLeadingZeros : Prop :=
  ∀ (x : Word32) (s : State),
    encode (.lzc x) = (0#3 ++ x : BitVec (3 + 32)) ∧
    (x = 0 → evalInstr l10u (.lzc x) = .error .domainError ∧ signals (.lzc x) s 1) ∧
    (x ≠ 0 → ∃ n, n ≤ 31 ∧ 2 ^ (31 - n) ≤ x.toNat ∧ x.toNat < 2 ^ (32 - n) ∧
      x.getLsbD (31 - n) = true ∧ (∀ j, 31 - n < j → x.getLsbD j = false) ∧
      exec (.lzc x) s = .next { s with rOut := BitVec.ofNat 64 n, guessOut := 0, corrOut := 0, errOut := 0 })

/-- R36: HSB is the index of the most significant set bit, 31 minus the leading-zero count. -/
def Obligations.HsbIsTheTopBitIndex : Prop :=
  ∀ (x : Word32) (s : State),
    encode (.hsb x) = (1#3 ++ x : BitVec (3 + 32)) ∧
    (x = 0 → evalInstr l10u (.hsb x) = .error .domainError ∧ signals (.hsb x) s 1) ∧
    (∀ hx : x ≠ 0, ∃ h, h = 31 - (clz32 ⟨x, hx⟩).val ∧ h ≤ 31 ∧ IsTopBit x.toNat h ∧
      exec (.hsb x) s = .next { s with rOut := BitVec.ofNat 64 h, guessOut := 0, corrOut := 0, errOut := 0 })

/-- R45: ILOG10.W scales the highest-set-bit index by 9/32 and corrects the guess with one comparison. -/
def Obligations.Ilog10WCorrectsTheScaledIndex : Prop :=
  ∀ (x : Word32) (s : State),
    encode (.ilog10W x) = (2#3 ++ x : BitVec (3 + 32)) ∧
    (x = 0 → evalInstr l10u (.ilog10W x) = .error .domainError ∧ signals (.ilog10W x) s 1) ∧
    (x ≠ 0 → ∃ h g w c, IsTopBit x.toNat h ∧ g = 9 * h / 32 ∧ g ≤ 8 ∧ memReadT l10u g = .ok w ∧
      c = (if w.toNat < x.toNat then 1 else 0) ∧ g + c ≤ 9 ∧
      (1000000000 ≤ x.toNat → c = 1) ∧
      (h ∈ [7, 10, 14, 17, 20, 21, 24, 27, 28, 30, 31] → c = 1) ∧
      exec (.ilog10W x) s = .next { s with
        rOut := BitVec.ofNat 64 (g + c), guessOut := BitVec.ofNat 4 g, corrOut := BitVec.ofNat 1 c, errOut := 0 })

/-- R46: ILOG10.D counts the set bits of the shifted mask, which is the digit count of the smallest operand with the same
highest-set-bit index, and corrects that guess with one comparison. -/
def Obligations.Ilog10DCountsTheShiftedMask : Prop :=
  ∀ (x : Word32) (s : State),
    encode (.ilog10D x) = (3#3 ++ x : BitVec (3 + 32)) ∧
    dgaMaskWord = 0x09224892 ∧
    (x = 0 → evalInstr l10u (.ilog10D x) = .error .domainError ∧ signals (.ilog10D x) s 1) ∧
    (x ≠ 0 → ∃ h l g w c, IsTopBit x.toNat h ∧ l + h = 31 ∧ g = popcount32 (dgaMaskWord >>> l) ∧
      IsDigitCount (2 ^ h) g ∧ g ≤ 9 ∧ memReadT l10u g = .ok w ∧
      c = (if w.toNat < x.toNat then 1 else 0) ∧ g + c ≤ 9 ∧
      (c = 1 → h ∈ [3, 6, 9, 13, 16, 19, 23, 26, 29]) ∧
      exec (.ilog10D x) s = .next { s with
        rOut := BitVec.ofNat 64 (g + c), guessOut := BitVec.ofNat 4 g, corrOut := BitVec.ofNat 1 c, errOut := 0 })

/-- R47: ILOG10.Q scales the highest-set-bit index of `(X | 7) >> 1` by 5/16 and compares the original X. -/
def Obligations.Ilog10QScalesThePreparedIndex : Prop :=
  ∀ (x : Word32) (s : State),
    encode (.ilog10Q x) = (4#3 ++ x : BitVec (3 + 32)) ∧
    (x = 0 → evalInstr l10u (.ilog10Q x) = .error .domainError ∧ signals (.ilog10Q x) s 1) ∧
    (x ≠ 0 → ∃ h hq g w c, IsTopBit x.toNat h ∧ IsTopBit ((x ||| 7) >>> 1).toNat hq ∧
      hq = max h 2 - 1 ∧ 1 ≤ hq ∧ hq ≤ 30 ∧ g = 5 * hq / 16 ∧ g ≤ 9 ∧ memReadT l10u g = .ok w ∧
      c = (if w.toNat < x.toNat then 1 else 0) ∧ g + c ≤ 9 ∧
      (x.toNat ≤ 7 → hq = 1 ∧ g = 0 ∧ c = 0) ∧
      (16 ≤ x.toNat ∧ x.toNat ≤ 31 → hq = 3 ∧ g = 0 ∧ c = 1) ∧
      (2 ^ 31 ≤ x.toNat → hq = 30 ∧ g = 9 ∧ c = 0) ∧
      exec (.ilog10Q x) s = .next { s with
        rOut := BitVec.ofNat 64 (g + c), guessOut := BitVec.ofNat 4 g, corrOut := BitVec.ofNat 1 c, errOut := 0 })

/-- R48: ILOG10.L adds the bias word of the leading-zero count and keeps the upper half, with no guess and no comparison. -/
def Obligations.Ilog10LAddsTheBiasWord : Prop :=
  ∀ (x : Word32) (s : State),
    encode (.ilog10L x) = (5#3 ++ x : BitVec (3 + 32)) ∧
    (x = 0 → evalInstr l10u (.ilog10L x) = .error .domainError ∧ signals (.ilog10L x) s 1) ∧
    (x ≠ 0 → ∃ h l b, IsTopBit x.toNat h ∧ l + h = 31 ∧ memReadB l10u l = .ok b ∧
      x.toNat + b.toNat ≤ 0x9FFFFFFFF ∧ IsDigitCount x.toNat ((x.toNat + b.toNat) / 2 ^ 32) ∧
      exec (.ilog10L x) s = .next { s with
        rOut := BitVec.ofNat 64 ((x.toNat + b.toNat) / 2 ^ 32), guessOut := 0, corrOut := 0, errOut := 0 })

/-- R39: ROMT reads `T[X]` for X in 0..9, zero-extended, and raises IndexError for every other X. -/
def Obligations.RomtReadsTheThresholdWord : Prop :=
  ∀ (x : Word32) (s : State),
    encode (.romt x) = (6#3 ++ x : BitVec (3 + 32)) ∧
    (10 ≤ x.toNat → evalInstr l10u (.romt x) = .error .indexError ∧ signals (.romt x) s 2) ∧
    (x.toNat ≤ 9 → ∃ w, memReadT l10u x.toNat = .ok w ∧ w.toNat = thresholdNumber x.toNat ∧
      exec (.romt x) s = .next { s with
        rOut := BitVec.ofNat 64 w.toNat, guessOut := 0, corrOut := 0, errOut := 0 })

/-- R40: ROMB reads `B[X]` for X in 0..31, all 64 bits, and raises IndexError for every other X. -/
def Obligations.RombReadsTheBiasWord : Prop :=
  ∀ (x : Word32) (s : State),
    encode (.romb x) = (7#3 ++ x : BitVec (3 + 32)) ∧
    (32 ≤ x.toNat → evalInstr l10u (.romb x) = .error .indexError ∧ signals (.romb x) s 2) ∧
    (x.toNat ≤ 31 → ∃ b, memReadB l10u x.toNat = .ok b ∧
      (∃ g, IsDigitCount (2 ^ (31 - x.toNat)) g ∧ b.toNat = biasNumber x.toNat g) ∧
      exec (.romb x) s = .next { s with rOut := b, guessOut := 0, corrOut := 0, errOut := 0 })

/-! ## Bit primitives -/

/-- R37: the five laws of the two primitives. -/
def Obligations.BitPrimitiveLaws : Prop :=
  ∀ v : NonZero,
    (clz32 v).val + (msb32 v).val = 31 ∧
    (2 ^ (msb32 v).val ≤ v.val.toNat ∧ v.val.toNat < 2 ^ ((msb32 v).val + 1)) ∧
    (v.val.getLsbD (msb32 v).val = true ∧ ∀ j, (msb32 v).val < j → v.val.getLsbD j = false) ∧
    (∀ w : NonZero, w.val = v.val >>> 1 → (clz32 w).val = (clz32 v).val + 1) ∧
    (∀ w : NonZero, w.val = v.val ||| 7 → (msb32 w).val = max (msb32 v).val 2)

/-- R38: LZC and HSB drive no guess and no comparison, and give the same whatever the ROMs hold. -/
def Obligations.BitPrimitivesReadNoRom : Prop :=
  ∀ (x : Word32) (cfg : Config) (i : Instr), i ∈ [Instr.lzc x, .hsb x] →
    evalInstr cfg i = evalInstr l10u i ∧
    ∀ o, evalInstr l10u i = .ok o → o.guess = 0 ∧ o.corr = 0

/-! ## The ROMs -/

/-- R15: the ten words of `T`, from the table and from its definition. -/
def Obligations.ThresholdRomHoldsTheBoundaries : Prop :=
  ((List.range 10).map fun i => memReadT l10u i) =
    [.ok 0x00000009, .ok 0x00000063, .ok 0x000003E7, .ok 0x0000270F, .ok 0x0001869F,
     .ok 0x000F423F, .ok 0x0098967F, .ok 0x05F5E0FF, .ok 0x3B9AC9FF, .ok 0xFFFFFFFF] ∧
  (∀ i, i ≤ 8 → memReadT l10u i = .ok (BitVec.ofNat 32 (10 ^ (i + 1) - 1))) ∧
  memReadT l10u 9 = .ok 4294967295

/-- R16: `T` is strictly increasing and ends in UINT32_MAX; a comparison with `T[k]` tells whether the digit count reaches
k + 1, and no operand exceeds `T[9]`. -/
def Obligations.ThresholdRomIncreasesAndDecides : Prop :=
  (∀ i, i ≤ 8 → ∃ a b, memReadT l10u i = .ok a ∧ memReadT l10u (i + 1) = .ok b ∧ a < b) ∧
  memReadT l10u 9 = .ok 0xFFFFFFFF ∧
  (∀ (x : Word32) (m k : Nat), x ≠ 0 → IsDigitCount x.toNat m → k ≤ 8 →
    ∃ w, memReadT l10u k = .ok w ∧ (w < x ↔ k + 1 ≤ m)) ∧
  (∀ x : Word32, ¬ (0xFFFFFFFF#32 < x))

/-- R17: every word of `B` is what the construction from `T` gives, g being the number of thresholds below the smallest operand
the word serves, which is that operand's digit count. -/
def Obligations.BiasRomFollowsItsConstruction : Prop :=
  ∀ l, l ≤ 31 → ∃ g b,
    g = (List.range 9).countP (fun i => decide (thresholdNumber i < 2 ^ (31 - l))) ∧
    IsDigitCount (2 ^ (31 - l)) g ∧
    memReadB l10u l = .ok b ∧
    b.toNat =
      if g ≤ 8 ∧ thresholdNumber g + 1 < 2 ^ (31 - l + 1) then (g + 1) * 2 ^ 32 - (thresholdNumber g + 1)
      else g * 2 ^ 32

/-- R18: adding the bias word of an operand's leading-zero count and keeping the upper half gives its digit count, and the sum
never wraps. -/
def Obligations.BiasWordYieldsTheDigitCount : Prop :=
  ∀ v : NonZero, ∃ b, memReadB l10u (clz32 v).val = .ok b ∧
    v.val.toNat + b.toNat ≤ 0x9FFFFFFFF ∧
    IsDigitCount v.val.toNat ((v.val.setWidth 64 + b) >>> 32).toNat

/-- R20: the read primitive on its indices, and the digit-count operations apply it to no other. -/
def Obligations.RomReadsStayInRange : Prop :=
  (∀ i, i ≤ 9 → ∃ w, memReadT l10u i = .ok w ∧ w.toNat = thresholdNumber i) ∧
  (∀ l, l ≤ 31 → ∃ b g, memReadB l10u l = .ok b ∧ IsDigitCount (2 ^ (31 - l)) g ∧ b.toNat = biasNumber l g) ∧
  (∀ v : NonZero, guessW v ≤ 9 ∧ guessD dgaMaskWord v ≤ 9 ∧ guessQ v ≤ 9 ∧ (clz32 v).val ≤ 31) ∧
  (∀ i : Instr, (opcode i).toNat ≤ 5 → evalInstr l10u i ≠ .error .indexError) ∧
  (∀ x : Word32, (9 < x.toNat → evalInstr l10u (.romt x) = .error .indexError) ∧
    (31 < x.toNat → evalInstr l10u (.romb x) = .error .indexError))

/-- 20_memory.md section 4: an evaluation depends on at most one word of the ROMs, one of `T` for ILOG10.W, ILOG10.D, ILOG10.Q
and ROMT, one of `B` for ILOG10.L and ROMB. -/
def Obligations.OneRomWordPerEvaluation : Prop :=
  ∀ x : Word32,
    (∀ f ∈ [Instr.ilog10W, Instr.ilog10D, Instr.ilog10Q, Instr.romt], ∃ g, g ≤ 9 ∧
      ∀ cfg : Config, cfg.dgaMask = l10u.dgaMask → memReadT cfg g = memReadT l10u g →
        evalInstr cfg (f x) = evalInstr l10u (f x)) ∧
    (∀ f ∈ [Instr.ilog10L, Instr.romb], ∃ l, l ≤ 31 ∧
      ∀ cfg : Config, memReadB cfg l = memReadB l10u l → evalInstr cfg (f x) = evalInstr l10u (f x))

/-- R41: ROMT and ROMB show no guess and no comparison; with an index in range each answers from the one word it reads, and with
an index out of range it reads none. -/
def Obligations.AccessorsReadOneWordAndShowNoGuess : Prop :=
  ∀ (x : Word32) (cfg : Config),
    (∀ f ∈ [Instr.romt, Instr.romb], ∀ o, evalInstr cfg (f x) = .ok o → o.guess = 0 ∧ o.corr = 0) ∧
    (x.toNat ≤ 9 → evalInstr cfg (.romt x) = (memReadT cfg x.toNat).map fun w => ⟨w.setWidth 64, 0, 0⟩) ∧
    (x.toNat ≤ 31 → evalInstr cfg (.romb x) = (memReadB cfg x.toNat).map fun b => ⟨b, 0, 0⟩) ∧
    (9 < x.toNat → evalInstr cfg (.romt x) = .error .indexError) ∧
    (31 < x.toNat → evalInstr cfg (.romb x) = .error .indexError)

/-- 20_memory.md section 5: whatever evaluations came before and in whatever order, a read of `T[i]` gives the constant of R15 and a read of `B[l]`
the constant of R17. -/
def Obligations.RomReadsAreConstantAfterAnySession : Prop :=
  ∀ (cmds : List Instr) (s : State), ∃ seen u, session cmds s = .next (seen, u) ∧
    (∀ i, i ≤ 9 → ∃ t, evaluate (.romt (BitVec.ofNat 32 i)) u = .next t ∧ t.errOut = 0 ∧
      t.rOut.toNat = thresholdNumber i) ∧
    (∀ l, l ≤ 31 → ∃ t g, evaluate (.romb (BitVec.ofNat 32 l)) u = .next t ∧ t.errOut = 0 ∧
      IsDigitCount (2 ^ (31 - l)) g ∧ t.rOut.toNat = biasNumber l g)

/-! ## Digit counts -/

/-- R42 and R49: all four digit-count operations answer floor(log10 X) on 1..4294967295, both ends included, hence agree with
the reference ILOG10.W; at X = 0 each raises DomainError. -/
def Obligations.AllVariantsGiveTheDigitCount : Prop :=
  ∀ (x : Word32) (s : State),
    (x = 0 → ∀ f ∈ [Instr.ilog10W, Instr.ilog10D, Instr.ilog10Q, Instr.ilog10L], signals (f x) s 1) ∧
    (x ≠ 0 → ∃ k, k ≤ 9 ∧ IsDigitCount x.toNat k ∧
      ∀ f ∈ [Instr.ilog10W, Instr.ilog10D, Instr.ilog10Q, Instr.ilog10L],
        ∃ t, exec (f x) s = .next t ∧ t.rOut = BitVec.ofNat 64 k ∧ t.errOut = 0 ∧
          t.op = s.op ∧ t.xIn = s.xIn ∧ t.draws = s.draws)

/-- R43: `corr_out` is the one comparison of X with the word that `guess_out` selects, `r_out` their sum, and that sum is the
digit count. -/
def Obligations.CorrectionAddsTheComparator : Prop :=
  ∀ (x : Word32) (s : State), x ≠ 0 →
    ∀ f ∈ [Instr.ilog10W, Instr.ilog10D, Instr.ilog10Q],
      ∃ t w, exec (f x) s = .next t ∧ t.guessOut.toNat ≤ 9 ∧ memReadT l10u t.guessOut.toNat = .ok w ∧
        t.corrOut.toNat = (if w < x then 1 else 0) ∧
        t.rOut.toNat = t.guessOut.toNat + t.corrOut.toNat ∧
        IsDigitCount x.toNat t.rOut.toNat

/-- R44: a guess is the digit count or one less; the largest is 8 for ILOG10.W and 9 for ILOG10.D and ILOG10.Q. -/
def Obligations.GuessNeverExceedsTheDigitCount : Prop :=
  ∀ s : State,
    (∀ (x : Word32) (k : Nat), x ≠ 0 → IsDigitCount x.toNat k →
      ∀ f ∈ [Instr.ilog10W, Instr.ilog10D, Instr.ilog10Q],
        ∃ t, exec (f x) s = .next t ∧ k ≤ t.guessOut.toNat + 1 ∧ t.guessOut.toNat ≤ k ∧ t.guessOut.toNat ≤ 9) ∧
    (∀ x : Word32, x ≠ 0 → ∃ t, exec (.ilog10W x) s = .next t ∧ t.guessOut.toNat ≤ 8) ∧
    (∃ (x : Word32) (t : State), x ≠ 0 ∧ exec (.ilog10W x) s = .next t ∧ t.guessOut = 8) ∧
    (∀ f ∈ [Instr.ilog10D, Instr.ilog10Q],
      ∃ (x : Word32) (t : State), x ≠ 0 ∧ exec (f x) s = .next t ∧ t.guessOut = 9)

/-- R50: at each threshold t = T[k] the result is k, and at t + 1 it is k + 1. -/
def Obligations.ThresholdsAreExact : Prop :=
  ∀ k, k ≤ 8 → ∃ w, memReadT l10u k = .ok w ∧ w.toNat = 10 ^ (k + 1) - 1 ∧
    ∀ s : State, ∀ f ∈ [Instr.ilog10W, Instr.ilog10D, Instr.ilog10Q, Instr.ilog10L],
      ∃ a b, exec (f w) s = .next a ∧ a.errOut = 0 ∧ a.rOut.toNat = k ∧
        exec (f (w + 1)) s = .next b ∧ b.errOut = 0 ∧ b.rOut.toNat = k + 1

/-- R51: the result never decreases and never jumps by more than 1 as X increments. -/
def Obligations.DigitCountIsMonotone : Prop :=
  ∀ (x : Word32) (s : State), 1 ≤ x.toNat → x.toNat ≤ 4294967294 →
    ∀ f ∈ [Instr.ilog10W, Instr.ilog10D, Instr.ilog10Q, Instr.ilog10L],
      ∃ a b, exec (f x) s = .next a ∧ exec (f (x + 1)) s = .next b ∧
        a.rOut.toNat ≤ b.rOut.toNat ∧ b.rOut.toNat ≤ a.rOut.toNat + 1

/-- R52: the results at the two ends of the domain. -/
def Obligations.DigitCountAtTheExtremes : Prop :=
  ∀ s : State, ∀ f ∈ [Instr.ilog10W, Instr.ilog10D, Instr.ilog10Q, Instr.ilog10L],
    ∃ a b, exec (f 1) s = .next a ∧ a.rOut = 0 ∧ exec (f 4294967295) s = .next b ∧ b.rOut = 9

/-- R54: no intermediate value of the digit-count operations outgrows the width the rule gives it. -/
def Obligations.IntermediateWidthsSuffice : Prop :=
  ∀ v : NonZero,
    9 * (msb32 v).val ≤ 279 ∧
    5 * (msb32 (quaternicOperand v.val)).val ≤ 150 ∧
    popcount32 (dgaMaskWord >>> (clz32 v).val) ≤ 9 ∧
    (∀ g ∈ [guessW v, guessD dgaMaskWord v, guessQ v], g ≤ 9 ∧
      ∃ w, memReadT l10u g = .ok w ∧ g + (if w < v.val then 1 else 0) ≤ 9 ∧ (g = 9 → ¬ w < v.val)) ∧
    (∃ b, memReadB l10u (clz32 v).val = .ok b ∧ v.val.toNat + b.toNat ≤ 0x9FFFFFFFF)

/-- 93_implementation_defined.md U6: with any mask whose guess keeps the bound, ILOG10.D answers the same result; only its guess
and comparator depend on the mask. -/
def Obligations.AnyBoundedMaskGivesTheSameResult : Prop :=
  ∀ (mask x : Word32) (hx : x ≠ 0) (k : Nat), IsDigitCount x.toNat k →
    guessD mask ⟨x, hx⟩ ≤ k → k ≤ guessD mask ⟨x, hx⟩ + 1 →
    ∃ o, evalInstr ⟨l10u.threshold, l10u.bias, mask⟩ (.ilog10D x) = .ok o ∧ o.r.toNat = k ∧
      o.guess.toNat = guessD mask ⟨x, hx⟩ ∧ o.corr.toNat = k - guessD mask ⟨x, hx⟩

/-- R34: every narrower result is zero-extended to the 64 bits of `r_out`; ROMB drives all 64. -/
def Obligations.ResultsAreZeroExtended : Prop :=
  ∀ (i : Instr) (o : Outputs), evalInstr l10u i = .ok o →
    ((opcode i).toNat ≤ 1 → o.r.toNat ≤ 31 ∧ o.r.extractLsb' 5 59 = 0) ∧
    (2 ≤ (opcode i).toNat ∧ (opcode i).toNat ≤ 5 → o.r.toNat ≤ 9 ∧ o.r.extractLsb' 4 60 = 0) ∧
    (opcode i = 6 → o.r.extractLsb' 32 32 = 0 ∧ memReadT l10u i.operand.toNat = .ok (o.r.extractLsb' 0 32)) ∧
    (opcode i = 7 → memReadB l10u i.operand.toNat = .ok o.r)

/-- 95_test_vectors.md program P5, for every operand: ILOG10.L and ILOG10.W are what a host computes from LZC with ROMB and from
HSB with ROMT. -/
def Obligations.CompositesFollowFromTheLeaves : Prop :=
  ∀ (x : Word32) (s : State), x ≠ 0 →
    (∃ a b c, evaluate (.lzc x) s = .next a ∧ evaluate (.romb (a.rOut.setWidth 32)) a = .next b ∧
      evaluate (.ilog10L x) b = .next c ∧ a.errOut = 0 ∧ b.errOut = 0 ∧ c.errOut = 0 ∧
      c.rOut = (x.setWidth 64 + b.rOut) >>> 32) ∧
    (∃ a b c, evaluate (.hsb x) s = .next a ∧
      evaluate (.romt (((9 * a.rOut) >>> 5).setWidth 32)) a = .next b ∧
      evaluate (.ilog10W x) b = .next c ∧ a.errOut = 0 ∧ b.errOut = 0 ∧ c.errOut = 0 ∧
      c.guessOut = ((9 * a.rOut) >>> 5).setWidth 4 ∧
      c.corrOut = (if b.rOut < x.setWidth 64 then 1 else 0) ∧
      c.rOut.toNat = c.guessOut.toNat + c.corrOut.toNat)

/-! ## Errors -/

/-- R55 and R58: whatever is on the inputs, the step goes on and `err_out` is what the decision procedure says; the code 3 is
never driven and means nothing, the other three mean what the table says. -/
def Obligations.ErrorCodeFollowsTheDecisionProcedure : Prop :=
  (∀ s : State, ∃ t, step s = .next t ∧ t.errOut = errorRule s.op s.xIn ∧ t.errOut ≠ 3 ∧
    errMeaning t.errOut = some ((evalInstr l10u (decodePorts s.op s.xIn)).map fun _ => ())) ∧
  errMeaning 0 = some (.ok ()) ∧ errMeaning 1 = some (.error .domainError) ∧
  errMeaning 2 = some (.error .indexError) ∧ errMeaning 3 = none

/-- 60_exceptions.md section 1, with the free values of log 2: an evaluation that signals an error answers a fault and no data
under every configuration, and its step changes `err_out` and the three unspecified data outputs, which take free values, and
nothing else but the counter of free values. -/
def Obligations.ErroneousEvaluationsDrawFreeValues : Prop :=
  ∀ (i : Instr) (s : State), errorRule (opcode i) i.operand ≠ 0 →
    (∀ cfg : Config, evalInstr cfg i =
      .error (if (opcode i).toNat ≤ 5 then .domainError else .indexError)) ∧
    exec i s = .next { s with
      rOut := Config.freeROut s.draws (encode i)
      guessOut := Config.freeGuessOut s.draws (encode i)
      corrOut := Config.freeCorrOut s.draws (encode i)
      errOut := errorRule (opcode i) i.operand
      draws := s.draws + 1 }

/-- R60: the evaluation after a faulting one is an ordinary evaluation, independent of it. -/
def Obligations.ErrorsDoNotStick : Prop :=
  ∀ (i j : Instr) (s : State), errorRule (opcode i) i.operand ≠ 0 →
    ∃ t u v, evaluate i s = .next t ∧ t.errOut = errorRule (opcode i) i.operand ∧
      evaluate j t = .next u ∧ evaluate j s = .next v ∧
      u.sample = v.sample ∧ u.errOut = errorRule (opcode j) j.operand

/-! ## The whole unit -/

/-- R4: what the host may read of an evaluation depends on the inputs and on nothing else. -/
def Obligations.OutputsDependOnInputsAlone : Prop :=
  ∀ s s' : State, s.op = s'.op → s.xIn = s'.xIn →
    ∃ t t', step s = .next t ∧ step s' = .next t' ∧ t.sample = t'.sample ∧ t.errOut = t'.errOut

/-- R5: no sequence of evaluations leaves anything behind that a later one could show: from any state, what the host samples is
the list of what each command alone gives. -/
def Obligations.SessionsObserveEachCommandAlone : Prop :=
  ∀ (cmds : List Instr) (s : State), ∃ u,
    session cmds s = .next (cmds.map (fun i =>
      match evalInstr l10u i with
      | .ok o => Sample.mk 0 (some o)
      | .error f => Sample.mk (errCode f) none), u)

/-- R12: after every step the four outputs are the values the rule of the operation gives for the pair on the inputs, and the
inputs are as the host left them. -/
def Obligations.EveryStepSettlesTheOutputs : Prop :=
  ∀ s : State, ∃ t, step s = .next t ∧ t.settled ∧ t.op = s.op ∧ t.xIn = s.xIn

/-- The outputs are settled at reset. The inputs, and with them the outputs, are the model's choice (log 3). -/
def Obligations.ResetIsSettled : Prop :=
  State.reset.settled

/-- R68: nothing has to be initialised: the first evaluation after power-up gives what it gives in any state. -/
def Obligations.FirstEvaluationIsOrdinary : Prop :=
  ∀ (i : Instr) (s : State), ∃ t u, evaluate i State.reset = .next t ∧ evaluate i s = .next u ∧
    t.sample = u.sample ∧ t.settled ∧ u.settled

/-- 70_reset_and_hazards.md section 5: a host that tests its operands first is given data by every one of its evaluations. -/
def Obligations.SafeSessionsAlwaysGiveData : Prop :=
  ∀ (cmds : List Instr) (s : State), safeSession cmds →
    ∃ seen u, session cmds s = .next (seen, u) ∧ seen.length = cmds.length ∧ u.draws = s.draws ∧
      ∀ o ∈ seen, o.err = 0 ∧ o.data ≠ none

/-! ## The textual form -/

/-- R33: each pseudo-operation expands to exactly one command. -/
def Obligations.PseudoOperationsExpandToOneCommand : Prop :=
  ∀ v : Nat, v ≤ 4294967295 →
    assemble ⟨.ilog10, v⟩ = .ok (.ilog10W (BitVec.ofNat 32 v)) ∧
    assemble ⟨.warren, v⟩ = .ok (.ilog10W (BitVec.ofNat 32 v)) ∧
    assemble ⟨.dga, v⟩ = .ok (.ilog10D (BitVec.ofNat 32 v)) ∧
    assemble ⟨.quaternic, v⟩ = .ok (.ilog10Q (BitVec.ofNat 32 v)) ∧
    assemble ⟨.willet, v⟩ = .ok (.ilog10L (BitVec.ofNat 32 v)) ∧
    assemble ⟨.clz, v⟩ = .ok (.lzc (BitVec.ofNat 32 v))

/-- 30_encoding.md section 6 (log 8): a command written with a hexadecimal literal reads back as itself, with or without a
comment, and assembles to the same evaluation; a command is refused exactly when its literal is above 4294967295. -/
def Obligations.SourceTextReadsBack : Prop :=
  (∀ (i : Instr) (comment : List Char),
    parseLine (sourceText i) = .ok (some i.toSource) ∧
    parseLine (sourceText i ++ ';' :: comment) = .ok (some i.toSource) ∧
    assemble i.toSource = .ok i) ∧
  (∀ c : SourceCmd, assemble c = .error .operandTooLarge ↔ 4294967295 < c.operand)
end

