-- ==== Sys2Proof/Laws/State.lean ====
section
/-! SUPPORT. One lemma per field per update of State, and what one end of an evaluation can do. -/

namespace Sys2Proof.Machine

section present
variable (i : Instr) (s : State)
@[simp] theorem State.present_op : (s.present i).op = opcode i := rfl
@[simp] theorem State.present_xIn : (s.present i).xIn = i.operand := rfl
@[simp] theorem State.present_rOut : (s.present i).rOut = s.rOut := rfl
@[simp] theorem State.present_guessOut : (s.present i).guessOut = s.guessOut := rfl
@[simp] theorem State.present_corrOut : (s.present i).corrOut = s.corrOut := rfl
@[simp] theorem State.present_errOut : (s.present i).errOut = s.errOut := rfl
@[simp] theorem State.present_draws : (s.present i).draws = s.draws := rfl
@[simp] theorem State.present_command : (s.present i).command = encode i := rfl
end present

section drive
variable (o : Outputs) (s : State)
@[simp] theorem State.drive_op : (s.drive o).op = s.op := rfl
@[simp] theorem State.drive_xIn : (s.drive o).xIn = s.xIn := rfl
@[simp] theorem State.drive_rOut : (s.drive o).rOut = o.r := rfl
@[simp] theorem State.drive_guessOut : (s.drive o).guessOut = o.guess := rfl
@[simp] theorem State.drive_corrOut : (s.drive o).corrOut = o.corr := rfl
@[simp] theorem State.drive_errOut : (s.drive o).errOut = 0 := rfl
@[simp] theorem State.drive_draws : (s.drive o).draws = s.draws := rfl
@[simp] theorem State.drive_command : (s.drive o).command = s.command := rfl
/-- A valid evaluation is sampled with all its data outputs. -/
@[simp] theorem State.drive_sample : (s.drive o).sample = ⟨0, some o⟩ := rfl
end drive

section raise
variable (f : Fault) (c : Cmd) (s : State)
@[simp] theorem State.raise_op : (s.raise f c).op = s.op := rfl
@[simp] theorem State.raise_xIn : (s.raise f c).xIn = s.xIn := rfl
@[simp] theorem State.raise_errOut : (s.raise f c).errOut = errCode f := rfl
@[simp] theorem State.raise_draws : (s.raise f c).draws = s.draws + 1 := rfl
@[simp] theorem State.raise_command : (s.raise f c).command = s.command := rfl
/-- The codes of the two exceptions are not the code of a valid evaluation. -/
theorem errCode_ne_zero : errCode f ≠ 0 := by cases f <;> decide
/-- An evaluation that signals an error is sampled without data (R71). -/
@[simp] theorem State.raise_sample : (s.raise f c).sample = ⟨errCode f, none⟩ := by
  cases f <;> rfl
end raise

section conclude
variable (c : Cmd) (s : State)
@[simp] theorem conclude_ok (o : Outputs) : conclude c (.ok o) s = .next (s.drive o) := rfl
@[simp] theorem conclude_error (f : Fault) : conclude c (.error f) s = .next (s.raise f c) := rfl

/-- All the ways an evaluation can end: both are a next state. -/
theorem conclude_cases (e : Except Fault Outputs) :
    (∃ o, e = .ok o ∧ conclude c e s = .next (s.drive o)) ∨
      (∃ f, e = .error f ∧ conclude c e s = .next (s.raise f c)) := by
  cases e with
  | ok o => exact .inl ⟨o, rfl, rfl⟩
  | error f => exact .inr ⟨f, rfl, rfl⟩
end conclude

end Sys2Proof.Machine
end

