-- ==== Sys2Proof/Laws/Operations.lean ====
section
/-! SUPPORT. One spec lemma for each shared operation of the evaluation: the bit primitives, the operand checks, the ROM reads
and the correction step. -/

namespace Sys2Proof.Machine

/-- What the scan over bits n-1 … 0 finds: zeros, and then a bit that is 1 unless it has passed them all. -/
theorem leadingZeros_spec (v : Word32) : ∀ n,
    (∀ j, n - leadingZeros v n ≤ j → j < n → v.getLsbD j = false) ∧
      (leadingZeros v n < n → v.getLsbD (n - 1 - leadingZeros v n) = true)
  | 0 => ⟨fun _ _ h => absurd h (Nat.not_lt_zero _), fun h => absurd h (Nat.not_lt_zero _)⟩
  | n + 1 => by
    have ih := leadingZeros_spec v n
    by_cases hn : v.getLsbD n = true
    · have e : leadingZeros v (n + 1) = 0 := by simp [leadingZeros, hn]
      rw [e]
      exact ⟨fun j h1 h2 => by omega, fun _ => hn⟩
    · have e : leadingZeros v (n + 1) = leadingZeros v n + 1 := by simp [leadingZeros, hn]
      rw [e]
      refine ⟨fun j h1 h2 => ?_, fun h => ?_⟩
      · by_cases hj : j = n
        · subst hj; simpa using hn
        · exact ih.1 j (by omega) (by omega)
      · have := ih.2 (by omega)
        rwa [show n - 1 - leadingZeros v n = n + 1 - 1 - (leadingZeros v n + 1) by omega] at this

theorem msb32_eq (v : NonZero) : (msb32 v).val = 31 - (clz32 v).val := rfl

/-- The bit at the highest-set-bit index is 1. -/
theorem msb32_bit (v : NonZero) : v.val.getLsbD (msb32 v).val = true := by
  have h := (leadingZeros_spec v.val 32).2 (leadingZeros_lt_32 v)
  exact h

/-- Every bit above the highest-set-bit index is 0. -/
theorem above_msb32 (v : NonZero) (j : Nat) (hj : (msb32 v).val < j) : v.val.getLsbD j = false := by
  by_cases h32 : j < 32
  · have e : (msb32 v).val = 31 - leadingZeros v.val 32 := rfl
    have := leadingZeros_lt_32 v
    exact (leadingZeros_spec v.val 32).1 j (by omega) h32
  · exact BitVec.getLsbD_of_ge v.val j (by omega)

/-- `msb32` is the highest-set-bit index of 00_scope.md section 6.1. -/
theorem msb32_isTopBit (v : NonZero) : IsTopBit v.val.toNat (msb32 v).val := by
  refine ⟨Nat.ge_two_pow_of_testBit (msb32_bit v), ?_⟩
  refine Nat.lt_pow_two_of_testBit _ fun j hj => ?_
  exact above_msb32 v j (by omega)

/-- The highest-set-bit index is the only h with 2^h ≤ v < 2^(h+1). -/
theorem isTopBit_unique (v a b : Nat) (ha : IsTopBit v a) (hb : IsTopBit v b) : a = b := by
  have h1 : a < b + 1 := (Nat.pow_lt_pow_iff_right (by omega)).mp (lt_of_le_of_lt ha.1 hb.2)
  have h2 : b < a + 1 := (Nat.pow_lt_pow_iff_right (by omega)).mp (lt_of_le_of_lt hb.1 ha.2)
  omega

/-- The digit count is the only k with 10^k ≤ v < 10^(k+1). -/
theorem isDigitCount_unique (v a b : Nat) (ha : IsDigitCount v a) (hb : IsDigitCount v b) : a = b := by
  have h1 : a < b + 1 := (Nat.pow_lt_pow_iff_right (by omega)).mp (lt_of_le_of_lt ha.1 hb.2)
  have h2 : b < a + 1 := (Nat.pow_lt_pow_iff_right (by omega)).mp (lt_of_le_of_lt hb.1 ha.2)
  omega

section operands

@[simp] theorem requireNonzero_zero : requireNonzero 0#32 = .error .domainError := rfl

theorem requireNonzero_of_ne (x : Word32) (h : x ≠ 0) : requireNonzero x = .ok ⟨x, h⟩ :=
  dif_neg h

theorem requireIndex_of_lt (d : Nat) (x : Word32) (h : x.toNat < d) : requireIndex d x = .ok x.toNat := by
  simp [requireIndex, h]

theorem requireIndex_of_ge (d : Nat) (x : Word32) (h : d ≤ x.toNat) : requireIndex d x = .error .indexError := by
  simp [requireIndex, Nat.not_lt.mpr h]

end operands

section rom

theorem memReadT_of_lt (cfg : Config) (i : Nat) (h : i < 10) : memReadT cfg i = .ok cfg.threshold[i] := by
  simp [memReadT, h]

theorem memReadB_of_lt (cfg : Config) (i : Nat) (h : i < 32) : memReadB cfg i = .ok cfg.bias[i] := by
  simp [memReadB, h]

/-- The correction step with a guess inside the table. -/
theorem correct_of_lt (cfg : Config) (g : Nat) (x : Word32) (h : g < 10) :
    correct cfg g x = .ok (.corrected g (BitVec.ult cfg.threshold[g] x)) := by
  simp [correct, memReadT_of_lt cfg g h]

end rom

section codec

@[simp] theorem operand_lzc (x : Word32) : (Instr.lzc x).operand = x := rfl
@[simp] theorem operand_hsb (x : Word32) : (Instr.hsb x).operand = x := rfl
@[simp] theorem operand_ilog10W (x : Word32) : (Instr.ilog10W x).operand = x := rfl
@[simp] theorem operand_ilog10D (x : Word32) : (Instr.ilog10D x).operand = x := rfl
@[simp] theorem operand_ilog10Q (x : Word32) : (Instr.ilog10Q x).operand = x := rfl
@[simp] theorem operand_ilog10L (x : Word32) : (Instr.ilog10L x).operand = x := rfl
@[simp] theorem operand_romt (x : Word32) : (Instr.romt x).operand = x := rfl
@[simp] theorem operand_romb (x : Word32) : (Instr.romb x).operand = x := rfl

@[simp] theorem opcode_lzc (x : Word32) : opcode (.lzc x) = 0#3 := rfl
@[simp] theorem opcode_hsb (x : Word32) : opcode (.hsb x) = 1#3 := rfl
@[simp] theorem opcode_ilog10W (x : Word32) : opcode (.ilog10W x) = 2#3 := rfl
@[simp] theorem opcode_ilog10D (x : Word32) : opcode (.ilog10D x) = 3#3 := rfl
@[simp] theorem opcode_ilog10Q (x : Word32) : opcode (.ilog10Q x) = 4#3 := rfl
@[simp] theorem opcode_ilog10L (x : Word32) : opcode (.ilog10L x) = 5#3 := rfl
@[simp] theorem opcode_romt (x : Word32) : opcode (.romt x) = 6#3 := rfl
@[simp] theorem opcode_romb (x : Word32) : opcode (.romb x) = 7#3 := rfl

/-- The ports that carry an operation's code and operand select that operation. -/
@[simp] theorem decodePorts_opcode (i : Instr) : decodePorts (opcode i) i.operand = i := by
  cases i <;> rfl

/-- The two fields of a command word built from an operation select and an operand, and its value as a number (R27). -/
@[simp] theorem extract_op (o : Op) (x : Word32) : BitVec.extractLsb' 32 3 (o ++ x : Cmd) = o :=
  BitVec.extractLsb'_append_eq_left

@[simp] theorem extract_operand (o : Op) (x : Word32) : BitVec.extractLsb' 0 32 (o ++ x : Cmd) = x :=
  BitVec.extractLsb'_append_eq_right

theorem append_extract (c : Cmd) : (c.extractLsb' 32 3 ++ c.extractLsb' 0 32 : Cmd) = c := by
  apply BitVec.eq_of_getLsbD_eq
  intro i hi
  refine (BitVec.getLsbD_append (x := c.extractLsb' 32 3) (y := c.extractLsb' 0 32)).trans ?_
  by_cases h : i < 32
  · simp [h]
  · simp [h, show 32 + (i - 32) = i by omega]
    omega

theorem append_toNat (o : Op) (x : Word32) : (o ++ x : Cmd).toNat = o.toNat * 2 ^ 32 + x.toNat := by
  refine (BitVec.toNat_append o x).trans ?_
  rw [← Nat.shiftLeft_add_eq_or_of_lt x.isLt, Nat.shiftLeft_eq]

end codec

section config

@[simp] theorem l10u_threshold : l10u.threshold = thresholdWords := rfl
@[simp] theorem l10u_bias : l10u.bias = biasWords := rfl
@[simp] theorem l10u_dgaMask : l10u.dgaMask = dgaMaskWord := rfl

end config

section evaluations
variable (cfg : Config) (v : NonZero)

/-- On an operand other than 0 each arithmetic operation is its pseudocode after the first line. -/
theorem evalLzc_of_ne : evalLzc v.val = .ok (.plain (BitVec.ofNat 64 (clz32 v).val)) := by
  simp only [evalLzc, requireNonzero_of_ne _ v.property, bind, Except.bind]
  rfl

theorem evalHsb_of_ne : evalHsb v.val = .ok (.plain (BitVec.ofNat 64 (msb32 v).val)) := by
  simp only [evalHsb, requireNonzero_of_ne _ v.property, bind, Except.bind]
  rfl

theorem evalIlog10W_of_ne : evalIlog10W cfg v.val = correct cfg (guessW v) v.val := by
  simp only [evalIlog10W, requireNonzero_of_ne _ v.property, bind, Except.bind]

theorem evalIlog10D_of_ne : evalIlog10D cfg v.val = correct cfg (guessD cfg.dgaMask v) v.val := by
  simp only [evalIlog10D, requireNonzero_of_ne _ v.property, bind, Except.bind]

theorem evalIlog10Q_of_ne : evalIlog10Q cfg v.val = correct cfg (guessQ v) v.val := by
  simp only [evalIlog10Q, requireNonzero_of_ne _ v.property, bind, Except.bind]

theorem evalIlog10L_of_ne :
    evalIlog10L cfg v.val = .ok (.plain ((v.val.setWidth 64 + cfg.bias[(clz32 v).val]) >>> 32)) := by
  simp only [evalIlog10L, requireNonzero_of_ne _ v.property, bind, Except.bind, memReadB_of_lt cfg _ (clz32 v).isLt]
  rfl

theorem evalRomt_of_lt (x : Word32) (h : x.toNat < 10) :
    evalRomt cfg x = .ok (.plain (cfg.threshold[x.toNat].setWidth 64)) := by
  simp only [evalRomt, requireIndex_of_lt _ x h, bind, Except.bind, memReadT_of_lt cfg _ h]
  rfl

theorem evalRomb_of_lt (x : Word32) (h : x.toNat < 32) : evalRomb cfg x = .ok (.plain cfg.bias[x.toNat]) := by
  simp only [evalRomb, requireIndex_of_lt _ x h, bind, Except.bind, memReadB_of_lt cfg _ h]
  rfl

/-- At X = 0 the first line raises DomainError, whatever the configuration (R56). -/
@[simp] theorem evalLzc_zero : evalLzc 0#32 = .error .domainError := rfl
@[simp] theorem evalHsb_zero : evalHsb 0#32 = .error .domainError := rfl
@[simp] theorem evalIlog10W_zero : evalIlog10W cfg 0#32 = .error .domainError := by
  simp only [evalIlog10W, requireNonzero_zero, bind, Except.bind]
@[simp] theorem evalIlog10D_zero : evalIlog10D cfg 0#32 = .error .domainError := by
  simp only [evalIlog10D, requireNonzero_zero, bind, Except.bind]
@[simp] theorem evalIlog10Q_zero : evalIlog10Q cfg 0#32 = .error .domainError := by
  simp only [evalIlog10Q, requireNonzero_zero, bind, Except.bind]
@[simp] theorem evalIlog10L_zero : evalIlog10L cfg 0#32 = .error .domainError := by
  simp only [evalIlog10L, requireNonzero_zero, bind, Except.bind]

theorem evalRomt_of_ge (x : Word32) (h : 10 ≤ x.toNat) : evalRomt cfg x = .error .indexError := by
  simp only [evalRomt, requireIndex_of_ge _ x h, bind, Except.bind]

theorem evalRomb_of_ge (x : Word32) (h : 32 ≤ x.toNat) : evalRomb cfg x = .error .indexError := by
  simp only [evalRomb, requireIndex_of_ge _ x h, bind, Except.bind]

end evaluations

section guesses

/-- The guess of ILOG10.W as R45's comment writes it. -/
theorem guessW_eq (v : NonZero) : guessW v = 9 * (msb32 v).val / 32 :=
  Nat.shiftRight_eq_div_pow _ 5

/-- R47: the prepared operand's highest set bit is `max(msb32(X), 2) - 1`. -/
theorem msb32_quaternicOperand (v : NonZero) :
    (msb32 (quaternicOperand v.val)).val = max (msb32 v).val 2 - 1 := by
  refine isTopBit_unique _ _ _ (msb32_isTopBit _) ?_
  have hv := msb32_isTopBit v
  generalize hh : (msb32 v).val = h at hv ⊢
  have e : (quaternicOperand v.val).val.toNat = (v.val.toNat ||| 7) / 2 := by
    simp [quaternicOperand, quaternicWord, Nat.shiftRight_eq_div_pow]
  rw [e]
  have h7 : 7 ≤ v.val.toNat ||| 7 := Nat.right_le_or
  have hx : v.val.toNat ≤ v.val.toNat ||| 7 := Nat.left_le_or
  rcases Nat.lt_or_ge h 3 with h3 | h3
  · have hlt : v.val.toNat ||| 7 < 2 ^ 3 :=
      Nat.or_lt_two_pow (lt_of_lt_of_le hv.2 (Nat.pow_le_pow_right (by omega) (by omega))) (by omega)
    rw [show max h 2 = 2 by omega]
    constructor <;> omega
  · have hlt : v.val.toNat ||| 7 < 2 ^ (h + 1) :=
      Nat.or_lt_two_pow hv.2 (lt_of_lt_of_le (by omega : 7 < 2 ^ 3) (Nat.pow_le_pow_right (by omega) (by omega)))
    rw [show max h 2 = h by omega]
    obtain ⟨m, rfl⟩ : ∃ m, h = m + 1 := ⟨h - 1, by omega⟩
    clear hh e
    simp only [IsTopBit, pow_succ, Nat.add_sub_cancel] at *
    constructor <;> omega

theorem guessQ_eq (v : NonZero) : guessQ v = 5 * (max (msb32 v).val 2 - 1) / 16 := by
  rw [guessQ, Nat.shiftRight_eq_div_pow, msb32_quaternicOperand]

/-- R46, row by row: the set bits of the shifted mask are the digit count of the row's smallest operand. -/
theorem dgaMask_rows : ∀ l : Fin 32, IsDigitCount (2 ^ (31 - l.val)) (popcount32 (dgaMaskWord >>> l.val)) := by
  decide

theorem guessD_isDigitCount (v : NonZero) : IsDigitCount (2 ^ (msb32 v).val) (guessD dgaMaskWord v) :=
  dgaMask_rows (clz32 v)

end guesses

end Sys2Proof.Machine
end

