-- ==== Sys2Proof/Laws/PerInstr.lean ====
section
/-! SUPPORT. Statements made of every instruction, one lemma a constructor. -/

namespace Sys2Proof.Laws

/-- Masking a concatenation with the bits of its upper part keeps the upper part alone. -/
theorem append_and_opMask (n : Op) (x : Word32) :
    ((n ++ x : BitVec (3 + 32)) &&& (7#3 ++ 0#32)) = (n ++ 0#32 : BitVec (3 + 32)) := by
  rw [BitVec.and_append, show (7#3) = BitVec.allOnes 3 from rfl, BitVec.and_allOnes]
  simp

/-- 30_encoding.md R28: the command word of an operation lies in its row of the opcode table, `c & mask = match` with mask
0x700000000. -/
def SelectsRow.Statement (i : Instr) : Prop :=
  encode i &&& (0x700000000 : Cmd) =
    match i with
    | .lzc _ => 0x000000000
    | .hsb _ => 0x100000000
    | .ilog10W _ => 0x200000000
    | .ilog10D _ => 0x300000000
    | .ilog10Q _ => 0x400000000
    | .ilog10L _ => 0x500000000
    | .romt _ => 0x600000000
    | .romb _ => 0x700000000

theorem SelectsRow.lzc (x : Word32) : SelectsRow.Statement (.lzc x) := append_and_opMask 0 x
theorem SelectsRow.hsb (x : Word32) : SelectsRow.Statement (.hsb x) := append_and_opMask 1 x
theorem SelectsRow.ilog10W (x : Word32) : SelectsRow.Statement (.ilog10W x) := append_and_opMask 2 x
theorem SelectsRow.ilog10D (x : Word32) : SelectsRow.Statement (.ilog10D x) := append_and_opMask 3 x
theorem SelectsRow.ilog10Q (x : Word32) : SelectsRow.Statement (.ilog10Q x) := append_and_opMask 4 x
theorem SelectsRow.ilog10L (x : Word32) : SelectsRow.Statement (.ilog10L x) := append_and_opMask 5 x
theorem SelectsRow.romt (x : Word32) : SelectsRow.Statement (.romt x) := append_and_opMask 6 x
theorem SelectsRow.romb (x : Word32) : SelectsRow.Statement (.romb x) := append_and_opMask 7 x

end Sys2Proof.Laws
end

