-- ==== Sys2Proof/Tests/Slice0.lean ====
section
/-! SUPPORT. Tests of the model. Expected values come from the spec's own tables and worked examples; each comment names them.
The witnesses at the end meet the hypotheses of the statements in Certificates/Slice0/Obligations.lean. -/

namespace Sys2Proof.Tests

open Sys2Proof Sys2Proof.Machine

/-- The four outputs of an outcome: `err_out`, `r_out`, `guess_out`, `corr_out`. -/
def outputsOf : Host.Outcome State Fault Refusal → Option (Nat × Nat × Nat × Nat)
  | .next t => some (t.errOut.toNat, t.rOut.toNat, t.guessOut.toNat, t.corrOut.toNat)
  | .fault _ => none
  | .refused _ => none

/-- What the host samples of an outcome. -/
def sampleOf : Host.Outcome State Fault Refusal → Option Sample
  | .next t => some t.sample
  | .fault _ => none
  | .refused _ => none

/-- One command word, placed as the host places it, run from reset. -/
def run (w : Nat) : Host.Outcome State Fault Refusal :=
  step (State.reset.withFetchWord 40 w)

/-! ## Well-formedness: the one check is on the literal (30_encoding.md R32) -/

theorem test_wf_refuses_large_literal : (SourceCmd.mk .lzc 4294967296).wf = false := by decide
theorem test_wf_accepts_largest_literal : (SourceCmd.mk .lzc 4294967295).wf = true := by decide
theorem test_wf_holds_of_instructions : (Instr.romb 0xFFFFFFFF).wf = true := by decide

/-! ## Decoding: words written out from R27 and R28, op in bits 34:32 (95 section 2.8) -/

theorem test_decode_lzc : decodeCmd 0b00000000000000000000010011100001111 = .lzc 9999 := by decide
theorem test_decode_hsb : decodeCmd 0b00100000000000000000000000000000001 = .hsb 1 := by decide
theorem test_decode_ilog10W : decodeCmd 0b01000000000000000000000001111101000 = .ilog10W 1000 := by decide
theorem test_decode_ilog10D : decodeCmd 0b01100000000000000000000001111101000 = .ilog10D 1000 := by decide
theorem test_decode_ilog10Q : decodeCmd 0b10000000000000000000000001111101000 = .ilog10Q 1000 := by decide
theorem test_decode_ilog10L : decodeCmd 0b10100000000000000000000001111101000 = .ilog10L 1000 := by decide
theorem test_decode_romt : decodeCmd 0b11000000000000000000000000000001001 = .romt 9 := by decide
theorem test_decode_romb : decodeCmd 0b11111111111111111111111111111111111 = .romb 4294967295 := by decide
theorem test_decode_table_word : decodeTableWord 40 0x60000000A = some (.romt 10) := by decide
theorem test_decode_rejects_wide_number : decodeWord 0x800000000 = .error .notACommandWord := by decide
theorem test_encode_romb : encode (.romb 28) = 0x70000001C := by decide

/-! ## The operations: 95_test_vectors.md sections 2.1 to 2.3, one step from reset -/

-- section 2.1, X = 9999 and X = 0x0001FFFF
theorem test_lzc_9999 : outputsOf (run 0x00000270F) = some (0, 18, 0, 0) := by decide
theorem test_lzc_below_top_bit : outputsOf (run 0x00001FFFF) = some (0, 15, 0, 0) := by decide
-- section 2.1, X = 9999 and X = 0x80000000
theorem test_hsb_9999 : outputsOf (run 0x10000270F) = some (0, 13, 0, 0) := by decide
theorem test_hsb_top_bit : outputsOf (run 0x180000000) = some (0, 31, 0, 0) := by decide
-- section 3, program P2 at X = 128, where the guesses differ, and section 2.3 at UINT32_MAX
theorem test_ilog10W_128 : outputsOf (run 0x200000080) = some (0, 2, 1, 1) := by decide
theorem test_ilog10W_max : outputsOf (run 0x2FFFFFFFF) = some (0, 9, 8, 1) := by decide
theorem test_ilog10D_128 : outputsOf (run 0x300000080) = some (0, 2, 2, 0) := by decide
theorem test_ilog10D_max : outputsOf (run 0x3FFFFFFFF) = some (0, 9, 9, 0) := by decide
-- section 2.3 at X = 16, where the guess is one below and the comparison decides, and at X = 9
theorem test_ilog10Q_16 : outputsOf (run 0x400000010) = some (0, 1, 0, 1) := by decide
theorem test_ilog10Q_9 : outputsOf (run 0x400000009) = some (0, 0, 0, 0) := by decide
-- section 1.2: the carry appears exactly at the power of ten
theorem test_ilog10L_999 : outputsOf (run 0x5000003E7) = some (0, 2, 0, 0) := by decide
theorem test_ilog10L_1000 : outputsOf (run 0x5000003E8) = some (0, 3, 0, 0) := by decide
-- section 2.2
theorem test_romt_9 : outputsOf (run 0x600000009) = some (0, 4294967295, 0, 0) := by decide
theorem test_romt_10 : sampleOf (run 0x60000000A) = some ⟨2, none⟩ := by decide
theorem test_romb_2 : outputsOf (run 0x700000002) = some (0, 37654705664, 0, 0) := by decide
theorem test_romb_256 : sampleOf (run 0x700000100) = some ⟨2, none⟩ := by decide
-- section 2.7: X = 0, ILOG10.Q too; the accessors read word 0
theorem test_ilog10Q_0 : sampleOf (run 0x400000000) = some ⟨1, none⟩ := by decide
theorem test_romb_0 : outputsOf (run 0x700000000) = some (0, 38654705664, 0, 0) := by decide

/-! ## The shared functions -/

-- 42_digit_count.md R46's examples: 0x09224892 >> 22 = 0x24, popcount 2
theorem test_mask_shift : dgaMaskWord >>> 22 = 0x24 ∧ popcount32 0x24 = 2 := by decide
-- 42_digit_count.md R47's example: (1000 | 7) >> 1 = 0x1F7
theorem test_quaternic_word : quaternicWord 1000 = 0x1F7 := by decide
-- 60_exceptions.md R55: the code 3 means nothing
theorem test_err_meaning : errMeaning 3 = none ∧ errMeaning 2 = some (.error .indexError) := by decide

/-! ## The host -/

-- 95 section 3, program P4, steps 1 and 2: an error does not stick
theorem test_error_does_not_stick :
    (match evaluate (.ilog10L 0) State.reset with
      | .next t => outputsOf (evaluate (.ilog10L 1) t)
      | .fault _ => none
      | .refused _ => none) = some (0, 0, 0, 0) := by decide

/-! ## Text: the examples of 30_encoding.md R32 and R33 -/

theorem test_parse_example :
    parseLine ['I', 'L', 'O', 'G', '1', '0', '.', 'W', ' ', '1', '0', '0', '0', ' ', ';', 'x'] =
      .ok (some ⟨.ilog10W, 1000⟩) := by decide
theorem test_parse_unknown_name : parseLine ['l', 'z', 'c', ' ', '1'] = .error .unknownMnemonic := by decide
theorem test_willet_assembles : (assemble ⟨.willet, 1000⟩).toOption.map encode = some 0x5000003E8 := by decide
theorem test_command_text :
    commandText (encode (.ilog10W 1000)) = ['0', 'x', '2', '0', '0', '0', '0', '0', '3', 'E', '8'] := by decide
theorem test_listing_example :
    listingText ⟨.ilog10W, 1000⟩ ⟨0, some ⟨3, 2, 1⟩⟩ =
      ['I', 'L', 'O', 'G', '1', '0', '.', 'W', ' ', '1', '0', '0', '0', ' ', '=', '>', ' ', 'r', '=', '3', ' ',
       'g', 'u', 'e', 's', 's', '=', '2', ' ', 'c', 'o', 'r', 'r', '=', '1', ' ', 'e', 'r', 'r', '=', '0'] := by decide

/-! ## Witnesses: concrete operands and states that meet the hypotheses of the statements -/

/-- LzcCountsLeadingZeros, HsbIsTheTopBitIndex, the four ILOG10 statements, AllVariantsGiveTheDigitCount: each clause, X = 0 and
the two ends of X ≠ 0. -/
theorem witness_operand_clauses :
    (0 : Word32) = 0 ∧ (1 : Word32) ≠ 0 ∧ (0xFFFFFFFF : Word32) ≠ 0 := by decide

/-- Ilog10WCorrectsTheScaledIndex: the inner clauses, at 10^9 and at h = 7. -/
theorem witness_ilog10W_clauses :
    1000000000 ≤ (1000000000 : Word32).toNat ∧ IsTopBit (128 : Word32).toNat 7 := by decide

/-- Ilog10DCountsTheShiftedMask: the inner clause, a comparison that answers 1, at X = 10. -/
theorem witness_ilog10D_clause : outputsOf (run 0x30000000A) = some (0, 1, 0, 1) := by decide

/-- Ilog10QScalesThePreparedIndex: the inner clauses at the ends of their ranges. -/
theorem witness_ilog10Q_clauses :
    (7 : Word32).toNat ≤ 7 ∧ 16 ≤ (16 : Word32).toNat ∧ (31 : Word32).toNat ≤ 31 ∧
      2 ^ 31 ≤ (0x80000000 : Word32).toNat := by decide

/-- RomtReadsTheThresholdWord, RombReadsTheBiasWord, AccessorsReadOneWordAndShowNoGuess, RomReadsStayInRange: the last index in
range and the first out of it. -/
theorem witness_index_clauses :
    (9 : Word32).toNat ≤ 9 ∧ 10 ≤ (10 : Word32).toNat ∧ (31 : Word32).toNat ≤ 31 ∧ 32 ≤ (32 : Word32).toNat := by decide

/-- The same two statements: an evaluation that answers data, and an operation of 0..5 (RomReadsStayInRange). -/
theorem witness_accessor_data :
    evalInstr l10u (.romt 9) = .ok ⟨4294967295, 0, 0⟩ ∧ (opcode (.ilog10L 0)).toNat ≤ 5 := by decide

/-- EveryCommandWordSelectsOneOperation: a word whose evaluation answers each fault. -/
theorem witness_faults :
    evalInstr l10u (decodeCmd 0x400000000) = .error .domainError ∧
    evalInstr l10u (decodeCmd 0x60000000A) = .error .indexError ∧
    evalInstr l10u (decodeCmd 0x700000020) = .error .indexError := by decide

/-- OnlyWiderNumbersAreRejected: the last number accepted and the first rejected. -/
theorem witness_command_words : 0x7FFFFFFFF < 2 ^ 35 ∧ 2 ^ 35 ≤ 0x800000000 := by decide

/-- BitPrimitiveLaws: an operand and the shifted and the or-ed word the last two laws speak of. -/
theorem witness_bit_laws :
    ∃ v w u : NonZero, v.val = 9 ∧ w.val = v.val >>> 1 ∧ u.val = v.val ||| 7 :=
  ⟨⟨9, by decide⟩, ⟨4, by decide⟩, ⟨15, by decide⟩, by decide, by decide, by decide⟩

/-- BitPrimitivesReadNoRom: both operations, and one that answers data. -/
theorem witness_bit_primitives :
    Instr.hsb 1 ∈ [Instr.lzc 1, .hsb 1] ∧ evalInstr l10u (.hsb 1) = .ok ⟨0, 0, 0⟩ := by decide

/-- ThresholdRomIncreasesAndDecides: an operand and its digit count, on both sides of `T[0]`. -/
theorem witness_threshold_comparison :
    IsDigitCount (9 : Word32).toNat 0 ∧ IsDigitCount (10 : Word32).toNat 1 := by decide

/-- OneRomWordPerEvaluation: a configuration that agrees with the unit on one word of each ROM only. -/
theorem witness_other_config :
    ∃ cfg : Config, cfg.dgaMask = l10u.dgaMask ∧ memReadT cfg 2 = memReadT l10u 2 ∧ memReadB cfg 22 = memReadB l10u 22 ∧
      memReadT cfg 3 ≠ memReadT l10u 3 ∧ memReadB cfg 0 ≠ memReadB l10u 0 :=
  ⟨⟨Vector.replicate 10 999, Vector.replicate 32 12884900888, 0x09224892⟩, by decide⟩

/-- CorrectionAddsTheComparator, GuessNeverExceedsTheDigitCount, CompositesFollowFromTheLeaves: an operand and its digit count. -/
theorem witness_digit_count : (1000 : Word32) ≠ 0 ∧ IsDigitCount (1000 : Word32).toNat 3 := by decide

/-- DigitCountIsMonotone: the two ends of its range. -/
theorem witness_monotone_ends :
    1 ≤ (1 : Word32).toNat ∧ (1 : Word32).toNat ≤ 4294967294 ∧
      1 ≤ (0xFFFFFFFE : Word32).toNat ∧ (0xFFFFFFFE : Word32).toNat ≤ 4294967294 := by decide

/-- AnyBoundedMaskGivesTheSameResult: the unit's own mask, and another that keeps the bound with another guess. -/
theorem witness_bounded_masks :
    IsDigitCount (1000 : Word32).toNat 3 ∧
    guessD 0x09224892 ⟨1000, by decide⟩ = 2 ∧ guessD 0x01C00000 ⟨1000, by decide⟩ = 3 := by decide

/-- ResultsAreZeroExtended: an evaluation that answers data, of each of the four kinds of result. -/
theorem witness_results :
    evalInstr l10u (.lzc 1) = .ok ⟨31, 0, 0⟩ ∧ evalInstr l10u (.ilog10L 0xFFFFFFFF) = .ok ⟨9, 0, 0⟩ ∧
    evalInstr l10u (.romt 0) = .ok ⟨9, 0, 0⟩ ∧ evalInstr l10u (.romb 31) = .ok ⟨0, 0, 0⟩ := by decide

/-- ErroneousEvaluationsDrawFreeValues, ErrorsDoNotStick: a command that signals each error, at the edge of its range. -/
theorem witness_errors :
    errorRule (opcode (.ilog10Q 0)) (Instr.ilog10Q 0).operand ≠ 0 ∧
    errorRule (opcode (.romt 10)) (Instr.romt 10).operand ≠ 0 ∧
    errorRule (opcode (.romb 32)) (Instr.romb 32).operand ≠ 0 := by decide

/-- OutputsDependOnInputsAlone: two states with the same inputs that differ in all else. -/
theorem witness_same_inputs :
    ∃ s s' : State, s.op = s'.op ∧ s.xIn = s'.xIn ∧ s.rOut ≠ s'.rOut ∧ s.errOut ≠ s'.errOut ∧ s.draws ≠ s'.draws :=
  ⟨State.reset, { State.reset with rOut := 7, errOut := 0, draws := 3 }, by decide⟩

/-- SafeSessionsAlwaysGiveData: a session of commands that signal no error, at the edges of their ranges. -/
theorem witness_safe_session : safeSession [.lzc 1, .romt 9, .romb 31, .ilog10W 0xFFFFFFFF] := by
  intro i hi
  simp only [List.mem_cons, List.not_mem_nil, or_false] at hi
  rcases hi with rfl | rfl | rfl | rfl <;> (unfold Instr.accepted; decide)

/-- PseudoOperationsExpandToOneCommand, SourceTextReadsBack: the largest literal and the first too large. -/
theorem witness_literals : 4294967295 ≤ 4294967295 ∧ 4294967295 < (SourceCmd.mk .lzc 4294967296).operand := by decide

end Sys2Proof.Tests
end

section
/-! The host's view of a step. Only the answer of the pure function `eval` (70_reset_and_hazards.md R71) reaches what the host
may read: the state a step starts from matters through the command on the inputs alone (10_state.md R4). -/

namespace Sys2Proof.Machine

/-- What the host samples at the end of an evaluation that answers `e` (R71). -/
def observation : Except Fault Outputs → Sample
  | .ok o => ⟨0, some o⟩
  | .error f => ⟨errCode f, none⟩

@[simp] theorem observation_ok (o : Outputs) : observation (.ok o) = ⟨0, some o⟩ := rfl

@[simp] theorem observation_error (f : Fault) : observation (.error f) = ⟨errCode f, none⟩ := rfl

/-- However an evaluation ends, the host samples its answer, from any state and under any command word. -/
theorem conclude_sample (c : Cmd) (e : Except Fault Outputs) (s : State) :
    ∃ t, conclude c e s = .next t ∧ t.sample = observation e := by
  obtain ⟨o, rfl, hnext⟩ | ⟨f, rfl, hnext⟩ := conclude_cases c s e
  · exact ⟨s.drive o, hnext, by simp⟩
  · exact ⟨s.raise f c, hnext, by simp⟩

/-- Executing an instruction is concluding what `eval` answers for it on the unit's constants. -/
theorem exec_eq_conclude (i : Instr) (s : State) :
    exec i s = conclude (encode i) (evalInstr l10u i) s := by
  cases i <;> rfl

/-- A step goes on, and the host samples the answer of `eval` to the command on the inputs. -/
theorem step_sample (s : State) :
    ∃ t, step s = .next t ∧ t.sample = observation (evalInstr l10u (decodeCmd s.command)) := by
  rw [step, exec_eq_conclude]
  exact conclude_sample _ _ s

/-- The command word is read from the two inputs alone. -/
theorem State.command_congr {s s' : State} (hop : s.op = s'.op) (hx : s.xIn = s'.xIn) :
    s.command = s'.command := by
  rw [State.command, State.command, hop, hx]

/-- The error code on the ports is part of the sample. -/
theorem State.errOut_eq_of_sample_eq {t t' : State} (h : t.sample = t'.sample) : t.errOut = t'.errOut :=
  congrArg Sample.err h

/-- Settles O40: both steps are sampled as the answer of `eval` to the same command word. -/
theorem outputsDependOnInputsAlone : Obligations.OutputsDependOnInputsAlone := by
  intro s s' hop hx
  obtain ⟨t, hstep, hsample⟩ := step_sample s
  obtain ⟨t', hstep', hsample'⟩ := step_sample s'
  have hsame : t.sample = t'.sample := by rw [hsample, hsample', State.command_congr hop hx]
  exact ⟨t, t', hstep, hstep', hsame, State.errOut_eq_of_sample_eq hsame⟩

end Sys2Proof.Machine
end

section
/-! Sessions. The samples of a sequence of evaluations are the answers of `eval`, command by command (10_state.md R5): a state
hands the next evaluation nothing that the host may read. -/

namespace Sys2Proof.Machine

/-- Every operation is the one its own command word selects (R27, R28). -/
@[simp] theorem decodeCmd_encode (i : Instr) : decodeCmd (encode i) = i := by
  rw [decodeCmd, encode, extract_op, extract_operand, decodePorts_opcode]

/-- One evaluation goes on from any state, and the host samples the answer of `eval` to the command it presented. -/
theorem evaluate_sample (i : Instr) (s : State) :
    ∃ t, evaluate i s = .next t ∧ t.sample = observation (evalInstr l10u i) := by
  obtain ⟨t, hstep, hsample⟩ := step_sample (s.present i)
  exact ⟨t, hstep, by rw [hsample, State.present_command, decodeCmd_encode]⟩

/-- A session that goes on is its first evaluation and then the session of the rest. -/
theorem session_cons_of_next {i : Instr} {rest : List Instr} {s t u : State} {seen : List Sample}
    (hfirst : evaluate i s = .next t) (hrest : session rest t = .next (seen, u)) :
    session (i :: rest) s = .next (t.sample :: seen, u) := by
  simp only [session, hfirst, hrest]

/-- A session runs to its end from any state, and its samples are the answers of `eval` in order. -/
theorem session_samples (cmds : List Instr) (s : State) :
    ∃ u, session cmds s = .next (cmds.map fun i => observation (evalInstr l10u i), u) := by
  induction cmds generalizing s with
  | nil => exact ⟨s, rfl⟩
  | cons i rest ih =>
    obtain ⟨t, hfirst, hsample⟩ := evaluate_sample i s
    obtain ⟨u, hrest⟩ := ih t
    exact ⟨u, by rw [session_cons_of_next hfirst hrest, hsample, List.map_cons]⟩

/-- Settles O41, by induction on the sequence of commands: `observation` is the statement's reading of an answer. -/
theorem sessionsObserveEachCommandAlone : Obligations.SessionsObserveEachCommandAlone :=
  session_samples

end Sys2Proof.Machine
end

section
/-! The digit count (00_scope.md section 6.1) by a corrected guess (42_digit_count.md R43, R44) and by a bias word
(41_threshold_rom.md R17, R18): what the numbers of the two ROMs do for every operand. -/

namespace Sys2Proof.Machine

/-- R44: `g` is the digit count of `x` or one less. -/
abbrev IsGuess (x g : Nat) : Prop :=
  10 ^ g ≤ x ∧ x < 10 ^ (g + 2)

/-- A power of ten that a 32-bit operand reaches is at most the ninth. -/
theorem le_nine_of_ten_pow_le {x g : Nat} (hx : x < 2 ^ 32) (hg : 10 ^ g ≤ x) : g ≤ 9 := by
  by_contra h
  have : 10 ^ 10 ≤ 10 ^ g := Nat.pow_le_pow_right (by omega) (by omega)
  omega

/-- R43: adding the comparison with the word a guess selects gives the digit count. -/
theorem isDigitCount_of_isGuess {x g : Nat} (hx : x < 2 ^ 32) (hg : IsGuess x g) :
    IsDigitCount x (g + if thresholdNumber g < x then 1 else 0) := by
  obtain ⟨hlo, hhi⟩ := hg
  have hpos : 0 < 10 ^ (g + 1) := Nat.pow_pos (by omega)
  rcases Nat.lt_or_ge g 9 with hlt | hge
  · rw [thresholdNumber, if_pos hlt]
    split
    · exact ⟨by omega, hhi⟩
    · exact ⟨hlo, show x < 10 ^ (g + 1) by omega⟩
  · obtain rfl : g = 9 := le_antisymm (le_nine_of_ten_pow_le hx hlo) hge
    have hnot : ¬ thresholdNumber 9 < x := not_lt.mpr (Nat.le_of_lt_succ hx)
    rw [if_neg hnot]
    exact ⟨hlo, by omega⟩

/-- A guess made from the highest-set-bit index is good for an operand when it is good for all that share the index. -/
theorem isGuess_of_isTopBit {x h g : Nat} (hx : IsTopBit x h) (hlo : 10 ^ g ≤ 2 ^ h) (hhi : 2 ^ (h + 1) ≤ 10 ^ (g + 2)) :
    IsGuess x g :=
  ⟨hlo.trans hx.1, hx.2.trans_le hhi⟩

/-- R45, row by row: the scaled index 9h/32 is a guess for every operand whose highest set bit is h. -/
theorem guessW_rows : ∀ h : Fin 32, 10 ^ (9 * h.val / 32) ≤ 2 ^ h.val ∧ 2 ^ (h.val + 1) ≤ 10 ^ (9 * h.val / 32 + 2) := by
  decide

/-- R47, row by row, for the prepared and scaled index. -/
theorem guessQ_rows : ∀ h : Fin 32, 10 ^ (5 * (max h.val 2 - 1) / 16) ≤ 2 ^ h.val ∧
    2 ^ (h.val + 1) ≤ 10 ^ (5 * (max h.val 2 - 1) / 16 + 2) := by
  decide

theorem guessW_isGuess (v : NonZero) : IsGuess v.val.toNat (guessW v) := by
  obtain ⟨hlo, hhi⟩ := guessW_rows (msb32 v)
  rw [guessW_eq]
  exact isGuess_of_isTopBit (msb32_isTopBit v) hlo hhi

/-- R46: the smallest operand with the same highest set bit has at most one digit less. -/
theorem guessD_isGuess (v : NonZero) : IsGuess v.val.toNat (guessD dgaMaskWord v) := by
  obtain ⟨hlo, hhi⟩ := guessD_isDigitCount v
  refine isGuess_of_isTopBit (msb32_isTopBit v) hlo ?_
  rw [pow_succ] at hhi ⊢
  rw [pow_succ 10 (_ + 1), pow_succ]
  omega

theorem guessQ_isGuess (v : NonZero) : IsGuess v.val.toNat (guessQ v) := by
  obtain ⟨hlo, hhi⟩ := guessQ_rows (msb32 v)
  rw [guessQ_eq]
  exact isGuess_of_isTopBit (msb32_isTopBit v) hlo hhi

/-- R17: the bias number of an operand's row carries into the upper half exactly when the comparison of R43 answers 1. -/
theorem add_biasNumber_div {x l g : Nat} (hrow : x < 2 ^ (32 - l)) (hx : x < 2 ^ 32) (hlo : 10 ^ g ≤ x) :
    (x + biasNumber l g) / 2 ^ 32 = g + if thresholdNumber g < x then 1 else 0 := by
  have hnine := le_nine_of_ten_pow_le hx hlo
  have hpos : 0 < 10 ^ (g + 1) := Nat.pow_pos (by omega)
  by_cases hserves : g ≤ 8 ∧ 10 ^ (g + 1) < 2 ^ (32 - l)
  · have hten : 10 ^ (g + 1) ≤ 10 ^ 9 := Nat.pow_le_pow_right (by omega) (by omega)
    rw [biasNumber, if_pos hserves, thresholdNumber, if_pos (show g < 9 by omega)]
    split <;> omega
  · have hnot : ¬ thresholdNumber g < x := by
      rw [thresholdNumber]
      split <;> omega
    rw [biasNumber, if_neg hserves, if_neg hnot]
    omega

end Sys2Proof.Machine
end

section
/-! What `eval` answers on the unit's constants, in the terms of Safety.lean: the words of the ROMs as numbers, the corrected
guess, and each operation against its rule (10_state.md R12). -/

namespace Sys2Proof.Machine

section roms

/-- R15. -/
theorem thresholdWords_toNat : ∀ i : Fin 10, thresholdWords[i].toNat = thresholdNumber i.val := by
  decide

/-- R17, row by row; the shifted mask counts the digits of the row's smallest operand (`dgaMask_rows`). -/
theorem biasWords_toNat :
    ∀ l : Fin 32, biasWords[l].toNat = biasNumber l.val (popcount32 (dgaMaskWord >>> l.val)) := by
  decide

/-- The guess of ILOG10.D names the bias number of the operand's row. -/
theorem biasWords_clz32 (v : NonZero) :
    biasWords[(clz32 v).val].toNat = biasNumber (clz32 v).val (guessD dgaMaskWord v) :=
  biasWords_toNat (clz32 v)

/-- R18 on the words: the sum does not wrap. -/
theorem add_biasWord_le (v : NonZero) : v.val.toNat + biasWords[(clz32 v).val].toNat ≤ 0x9FFFFFFFF := by
  have hword : ∀ l : Fin 32, biasWords[l].toNat ≤ 0x900000000 := by decide
  have hv := v.val.isLt
  have hrow : biasWords[(clz32 v).val].toNat ≤ 0x900000000 := hword (clz32 v)
  omega

/-- R18: the upper half of the sum with the bias word of the leading-zero count is the digit count. -/
theorem biasWord_yields_digitCount (v : NonZero) :
    IsDigitCount v.val.toNat ((v.val.setWidth 64 + biasWords[(clz32 v).val]) >>> 32).toNat := by
  have hsum := add_biasWord_le v
  have htop := (msb32_isTopBit v).2
  rw [msb32_eq, show 31 - (clz32 v).val + 1 = 32 - (clz32 v).val by omega] at htop
  have hguess := guessD_isGuess v
  have hcount := isDigitCount_of_isGuess v.val.isLt hguess
  rw [← add_biasNumber_div htop v.val.isLt hguess.1, ← biasWords_clz32] at hcount
  rwa [BitVec.toNat_ushiftRight, BitVec.toNat_add, BitVec.toNat_setWidth_of_le (by omega),
    Nat.mod_eq_of_lt (by omega), Nat.shiftRight_eq_div_pow]

end roms

/-- R43: the correction step, from any guess and with the thresholds of R15, answers the outputs the rule asks for. -/
theorem correct_of_isGuess {cfg : Config} (hT : cfg.threshold = thresholdWords) {g : Nat} {x : Word32}
    (hg : IsGuess x.toNat g) :
    ∃ o k, correct cfg g x = .ok o ∧ IsDigitCount x.toNat k ∧ guessedOutputs x.toNat k g o.r o.guess o.corr := by
  have hnine := le_nine_of_ten_pow_le x.isLt hg.1
  have hword : cfg.threshold[g].toNat = thresholdNumber g := by
    simp only [hT]
    exact thresholdWords_toNat ⟨g, by omega⟩
  have hcorr : (BitVec.ult cfg.threshold[g] x).toNat = if thresholdNumber g < x.toNat then 1 else 0 := by
    rw [BitVec.ult, hword]
    split <;> simp [*]
  refine ⟨_, _, correct_of_lt cfg g x (by omega), isDigitCount_of_isGuess x.isLt hg, ?_⟩
  rw [← hcorr]
  have hbit := Bool.toNat_le (BitVec.ult cfg.threshold[g] x)
  refine ⟨?_, ?_, ?_, ?_⟩
  · exact Nat.mod_eq_of_lt (by omega)
  · exact Nat.mod_eq_of_lt (by omega)
  · exact (BitVec.toNat_ofBool _).trans hcorr
  · exact congrArg (g + ·) (BitVec.toNat_ofBool _).symm

section dataRules
variable (x : Nat) (r : Word64) (guess : BitVec 4) (corr : BitVec 1)

/-- The data rule, operation by operation. -/
theorem dataRule_lzc : dataRule 0#3 x r guess corr ↔
    (∃ h, IsTopBit x h ∧ h + r.toNat = 31) ∧ guess = 0 ∧ corr = 0 := Iff.rfl
theorem dataRule_hsb : dataRule 1#3 x r guess corr ↔ IsTopBit x r.toNat ∧ guess = 0 ∧ corr = 0 := Iff.rfl
theorem dataRule_ilog10W : dataRule 2#3 x r guess corr ↔
    ∃ h k, IsTopBit x h ∧ IsDigitCount x k ∧ guessedOutputs x k (9 * h / 32) r guess corr := Iff.rfl
theorem dataRule_ilog10D : dataRule 3#3 x r guess corr ↔
    ∃ h g k, IsTopBit x h ∧ IsDigitCount (2 ^ h) g ∧ IsDigitCount x k ∧ guessedOutputs x k g r guess corr := Iff.rfl
theorem dataRule_ilog10Q : dataRule 4#3 x r guess corr ↔
    ∃ h k, IsTopBit x h ∧ IsDigitCount x k ∧ guessedOutputs x k (5 * (max h 2 - 1) / 16) r guess corr := Iff.rfl
theorem dataRule_ilog10L : dataRule 5#3 x r guess corr ↔ IsDigitCount x r.toNat ∧ guess = 0 ∧ corr = 0 := Iff.rfl
theorem dataRule_romt : dataRule 6#3 x r guess corr ↔ r.toNat = thresholdNumber x ∧ guess = 0 ∧ corr = 0 := Iff.rfl
theorem dataRule_romb : dataRule 7#3 x r guess corr ↔
    (∃ g, IsDigitCount (2 ^ (31 - x)) g ∧ r.toNat = biasNumber x g) ∧ guess = 0 ∧ corr = 0 := Iff.rfl

end dataRules

section errorRules
variable (x : Word32)

/-- R58, by its three cases. -/
theorem errorRule_of_le_five {op : Op} (hop : op.toNat ≤ 5) : errorRule op x = if x = 0 then 1 else 0 := if_pos hop
theorem errorRule_romt : errorRule 6#3 x = if x.toNat > 9 then 2 else 0 := rfl
theorem errorRule_romb : errorRule 7#3 x = if x.toNat > 31 then 2 else 0 := rfl

end errorRules

/-- An answer of `eval` is the one the rules give for the pair (OP, X): data where R58 says 0, and else the exception of its
code. -/
def FollowsRules (op : Op) (x : Word32) : Except Fault Outputs → Prop
  | .ok o => errorRule op x = 0 ∧ dataRule op x.toNat o.r o.guess o.corr
  | .error f => errorRule op x = errCode f

/-- An operation with the precondition X ≠ 0 follows its rule when it raises DomainError at 0 and answers data elsewhere. -/
theorem followsRules_of_nonZero {op : Op} (hop : op.toNat ≤ 5) {eval : Word32 → Except Fault Outputs}
    (hzero : eval 0 = .error .domainError)
    (hdata : ∀ v : NonZero, ∃ o, eval v.val = .ok o ∧ dataRule op v.val.toNat o.r o.guess o.corr) (x : Word32) :
    FollowsRules op x (eval x) := by
  by_cases hx : x = 0
  · subst hx
    rw [hzero]
    exact errorRule_of_le_five 0 hop
  · obtain ⟨o, ho, hrule⟩ := hdata ⟨x, hx⟩
    rw [show eval x = .ok o from ho]
    exact ⟨by rw [errorRule_of_le_five x hop, if_neg hx], hrule⟩

section operations
variable (v : NonZero) (x : Word32)

theorem lzc_dataRule :
    ∃ o, evalLzc v.val = .ok o ∧ dataRule 0#3 v.val.toNat o.r o.guess o.corr := by
  refine ⟨_, evalLzc_of_ne v, (dataRule_lzc ..).mpr ⟨⟨_, msb32_isTopBit v, ?_⟩, rfl, rfl⟩⟩
  rw [msb32_eq, Outputs.plain, BitVec.toNat_ofNat, Nat.mod_eq_of_lt (by omega)]
  omega

theorem hsb_dataRule :
    ∃ o, evalHsb v.val = .ok o ∧ dataRule 1#3 v.val.toNat o.r o.guess o.corr := by
  refine ⟨_, evalHsb_of_ne v, (dataRule_hsb ..).mpr ⟨?_, rfl, rfl⟩⟩
  rw [Outputs.plain, BitVec.toNat_ofNat, Nat.mod_eq_of_lt (by omega)]
  exact msb32_isTopBit v

theorem ilog10W_dataRule :
    ∃ o, evalIlog10W l10u v.val = .ok o ∧ dataRule 2#3 v.val.toNat o.r o.guess o.corr := by
  obtain ⟨o, k, ho, hk, hout⟩ := correct_of_isGuess l10u_threshold (guessW_isGuess v)
  rw [guessW_eq] at hout
  exact ⟨o, (evalIlog10W_of_ne l10u v).trans ho, (dataRule_ilog10W ..).mpr ⟨_, k, msb32_isTopBit v, hk, hout⟩⟩

theorem ilog10D_dataRule :
    ∃ o, evalIlog10D l10u v.val = .ok o ∧ dataRule 3#3 v.val.toNat o.r o.guess o.corr := by
  obtain ⟨o, k, ho, hk, hout⟩ := correct_of_isGuess l10u_threshold (guessD_isGuess v)
  exact ⟨o, (evalIlog10D_of_ne l10u v).trans ho,
    (dataRule_ilog10D ..).mpr ⟨_, _, k, msb32_isTopBit v, guessD_isDigitCount v, hk, hout⟩⟩

theorem ilog10Q_dataRule :
    ∃ o, evalIlog10Q l10u v.val = .ok o ∧ dataRule 4#3 v.val.toNat o.r o.guess o.corr := by
  obtain ⟨o, k, ho, hk, hout⟩ := correct_of_isGuess l10u_threshold (guessQ_isGuess v)
  rw [guessQ_eq] at hout
  exact ⟨o, (evalIlog10Q_of_ne l10u v).trans ho, (dataRule_ilog10Q ..).mpr ⟨_, k, msb32_isTopBit v, hk, hout⟩⟩

theorem ilog10L_dataRule :
    ∃ o, evalIlog10L l10u v.val = .ok o ∧ dataRule 5#3 v.val.toNat o.r o.guess o.corr :=
  ⟨_, evalIlog10L_of_ne l10u v, (dataRule_ilog10L ..).mpr ⟨biasWord_yields_digitCount v, rfl, rfl⟩⟩

/-- R39. -/
theorem romt_followsRules : FollowsRules 6#3 x (evalRomt l10u x) := by
  rcases Nat.lt_or_ge x.toNat 10 with hlt | hge
  · rw [evalRomt_of_lt l10u x hlt]
    refine ⟨by rw [errorRule_romt, if_neg (by omega)], (dataRule_romt ..).mpr ⟨?_, rfl, rfl⟩⟩
    exact (BitVec.toNat_setWidth_of_le (by omega)).trans (thresholdWords_toNat ⟨x.toNat, hlt⟩)
  · rw [evalRomt_of_ge l10u x hge]
    exact (errorRule_romt x).trans (if_pos hge)

/-- R40. -/
theorem romb_followsRules : FollowsRules 7#3 x (evalRomb l10u x) := by
  rcases Nat.lt_or_ge x.toNat 32 with hlt | hge
  · rw [evalRomb_of_lt l10u x hlt]
    exact ⟨by rw [errorRule_romb, if_neg (by omega)], (dataRule_romb ..).mpr
      ⟨⟨_, dgaMask_rows ⟨x.toNat, hlt⟩, biasWords_toNat ⟨x.toNat, hlt⟩⟩, rfl, rfl⟩⟩
  · rw [evalRomb_of_ge l10u x hge]
    exact (errorRule_romb x).trans (if_pos hge)

end operations

/-- R12: every evaluation answers what the rules give for its operation and operand. -/
theorem evalInstr_followsRules (i : Instr) : FollowsRules (opcode i) i.operand (evalInstr l10u i) := by
  cases i with
  | lzc x => exact followsRules_of_nonZero (op := 0#3) (by decide) evalLzc_zero lzc_dataRule x
  | hsb x => exact followsRules_of_nonZero (op := 1#3) (by decide) evalHsb_zero hsb_dataRule x
  | ilog10W x => exact followsRules_of_nonZero (op := 2#3) (by decide) (evalIlog10W_zero l10u) ilog10W_dataRule x
  | ilog10D x => exact followsRules_of_nonZero (op := 3#3) (by decide) (evalIlog10D_zero l10u) ilog10D_dataRule x
  | ilog10Q x => exact followsRules_of_nonZero (op := 4#3) (by decide) (evalIlog10Q_zero l10u) ilog10Q_dataRule x
  | ilog10L x => exact followsRules_of_nonZero (op := 5#3) (by decide) (evalIlog10L_zero l10u) ilog10L_dataRule x
  | romt x => exact romt_followsRules x
  | romb x => exact romb_followsRules x

end Sys2Proof.Machine
end

section
/-! The ports after a step: settled (10_state.md R12, R13), with the inputs as the host left them. -/

namespace Sys2Proof.Machine

/-- Concluding an answer that follows the rules for the pair on the inputs settles the outputs and keeps the inputs. -/
theorem conclude_settles {e : Except Fault Outputs} {s : State} (c : Cmd) (he : FollowsRules s.op s.xIn e) :
    ∃ t, conclude c e s = .next t ∧ t.settled ∧ t.op = s.op ∧ t.xIn = s.xIn := by
  obtain ⟨o, rfl, hnext⟩ | ⟨f, rfl, hnext⟩ := conclude_cases c s e
  · obtain ⟨hcode, hdata⟩ := he
    exact ⟨s.drive o, hnext, ⟨hcode.symm, fun _ => hdata⟩, rfl, rfl⟩
  · exact ⟨s.raise f c, hnext, ⟨he.symm, fun hzero => absurd hzero (errCode_ne_zero f)⟩, rfl, rfl⟩

/-- Every pair on the inputs is the code and the operand of an operation (R28, R30). -/
theorem exists_instr_of_ports (op : Op) (x : Word32) : ∃ i : Instr, opcode i = op ∧ i.operand = x := by
  obtain ⟨⟨n, hn⟩⟩ := op
  refine ⟨decodePorts ⟨n, hn⟩ x, ?_⟩
  interval_cases n <;> exact ⟨rfl, rfl⟩

/-- Settles O42: the command on the inputs is some operation's, and its evaluation follows the rules. -/
theorem everyStepSettlesTheOutputs : Obligations.EveryStepSettlesTheOutputs := by
  intro s
  obtain ⟨i, hop, hx⟩ := exists_instr_of_ports s.op s.xIn
  have hcommand : s.command = encode i := by rw [State.command, encode, hop, hx]
  rw [step, hcommand, decodeCmd_encode, exec_eq_conclude]
  refine conclude_settles _ ?_
  rw [← hop, ← hx]
  exact evalInstr_followsRules i

end Sys2Proof.Machine
end

section
/-! The ROM reads (20_memory.md R15 to R20) as numbers: each word of the unit's two ROMs by its rule, and what comparing with a
threshold says of a digit count. -/

namespace Sys2Proof.Machine

/-- R20 with R15: on the indices 0..9 the read of `T` answers the threshold number. -/
theorem memReadT_l10u_of_le {i : Nat} (hi : i ≤ 9) :
    ∃ w, memReadT l10u i = .ok w ∧ w.toNat = thresholdNumber i :=
  ⟨_, memReadT_of_lt l10u i (by omega), thresholdWords_toNat ⟨i, by omega⟩⟩

/-- R20 with R17: on the indices 0..31 the read of `B` answers the bias number of its row. -/
theorem memReadB_l10u_of_le {l : Nat} (hl : l ≤ 31) :
    ∃ b g, memReadB l10u l = .ok b ∧ IsDigitCount (2 ^ (31 - l)) g ∧ b.toNat = biasNumber l g :=
  ⟨_, _, memReadB_of_lt l10u l (by omega), dgaMask_rows ⟨l, by omega⟩, biasWords_toNat ⟨l, by omega⟩⟩

/-- R15 below the saturated entry. -/
theorem thresholdNumber_of_lt {i : Nat} (hi : i < 9) : thresholdNumber i = 10 ^ (i + 1) - 1 :=
  if_pos hi

theorem thresholdNumber_add_one {i : Nat} (hi : i < 9) : thresholdNumber i + 1 = 10 ^ (i + 1) := by
  rw [thresholdNumber_of_lt hi]
  exact Nat.sub_add_cancel (Nat.pow_pos (by omega))

/-- A number reaches the powers of ten up to its digit count and no other. -/
theorem ten_pow_le_iff_of_isDigitCount {x m j : Nat} (hm : IsDigitCount x m) : 10 ^ j ≤ x ↔ j ≤ m := by
  obtain ⟨hlo, hhi⟩ := hm
  constructor
  · intro hj
    exact Nat.le_of_lt_succ ((Nat.pow_lt_pow_iff_right (by omega)).mp (hj.trans_lt hhi))
  · intro hj
    exact (Nat.pow_le_pow_right (by omega) hj).trans hlo

/-- R16: a number exceeds `T[k]` exactly when its digit count exceeds k. -/
theorem thresholdNumber_lt_iff {x m k : Nat} (hm : IsDigitCount x m) (hk : k < 9) :
    thresholdNumber k < x ↔ k < m := by
  rw [← Nat.add_one_le_iff, thresholdNumber_add_one hk, ten_pow_le_iff_of_isDigitCount hm, Nat.add_one_le_iff]

/-- R16: the thresholds increase, up to the saturated entry. -/
theorem thresholdNumber_lt_succ : ∀ i : Fin 9, thresholdNumber i.val < thresholdNumber (i.val + 1) := by
  decide

/-- Settles O19. The table of ten words is read off; each word of 0..8 is the one its threshold number names. -/
theorem thresholdRomHoldsTheBoundaries : Obligations.ThresholdRomHoldsTheBoundaries := by
  refine ⟨by decide, fun i hi => ?_, rfl⟩
  obtain ⟨w, hread, hw⟩ := memReadT_l10u_of_le (i := i) (by omega)
  rw [hread, ← thresholdNumber_of_lt (by omega), ← hw, BitVec.ofNat_toNat, BitVec.setWidth_eq]

/-- Settles O20: words are compared as their threshold numbers. -/
theorem thresholdRomIncreasesAndDecides : Obligations.ThresholdRomIncreasesAndDecides := by
  refine ⟨fun i hi => ?_, rfl, fun x m k _ hm hk => ?_, fun x => ?_⟩
  · obtain ⟨a, hreadA, ha⟩ := memReadT_l10u_of_le (i := i) (by omega)
    obtain ⟨b, hreadB, hb⟩ := memReadT_l10u_of_le (i := i + 1) (by omega)
    refine ⟨a, b, hreadA, hreadB, ?_⟩
    rw [BitVec.lt_def, ha, hb]
    exact thresholdNumber_lt_succ ⟨i, by omega⟩
  · obtain ⟨w, hread, hw⟩ := memReadT_l10u_of_le (i := k) (by omega)
    refine ⟨w, hread, ?_⟩
    rw [BitVec.lt_def, hw, Nat.add_one_le_iff]
    exact thresholdNumber_lt_iff hm (by omega)
  · exact BitVec.not_lt.mpr (Nat.le_of_lt_succ x.isLt)

end Sys2Proof.Machine
end

section
/-! The bias ROM by its construction (20_memory.md R17), and the two ROMs as the operations read them (R18, R20). -/

namespace Sys2Proof.Machine

/-- Of the first n indices, those below g are min g n. -/
theorem countP_lt_range (g n : Nat) : (List.range n).countP (fun i => decide (i < g)) = min g n := by
  induction n with
  | zero => simp
  | succ n ih =>
    rw [List.range_succ, List.countP_append, ih, List.countP_singleton]
    by_cases hn : n < g
    · rw [if_pos (decide_eq_true hn)]
      omega
    · rw [if_neg (by simpa using hn)]
      omega

/-- R17: the number of thresholds `T[0..8]` below a 32-bit number is its digit count. -/
theorem countP_thresholdNumber_lt {x g : Nat} (hx : x < 2 ^ 32) (hg : IsDigitCount x g) :
    (List.range 9).countP (fun i => decide (thresholdNumber i < x)) = g := by
  have hnine := le_nine_of_ten_pow_le hx hg.1
  calc (List.range 9).countP (fun i => decide (thresholdNumber i < x))
      = (List.range 9).countP (fun i => decide (i < g)) := by
        refine List.countP_congr fun i hi => ?_
        rw [decide_eq_true_iff, decide_eq_true_iff]
        exact thresholdNumber_lt_iff hg (List.mem_range.mp hi)
    _ = g := by rw [countP_lt_range, min_eq_left hnine]

/-- R17: the bias number in terms of the threshold it is built from. -/
theorem biasNumber_eq_of_threshold {l : Nat} (hl : l ≤ 31) (g : Nat) :
    biasNumber l g =
      if g ≤ 8 ∧ thresholdNumber g + 1 < 2 ^ (31 - l + 1) then (g + 1) * 2 ^ 32 - (thresholdNumber g + 1)
      else g * 2 ^ 32 := by
  rw [biasNumber, show 31 - l + 1 = 32 - l by omega]
  by_cases hg : g ≤ 8
  · rw [thresholdNumber_add_one (by omega)]
  · rw [if_neg (fun h => hg h.1), if_neg (fun h => hg h.1)]

/-- Settles O21: `g` is the digit count of the row's smallest operand, which the thresholds below it number. -/
theorem biasRomFollowsItsConstruction : Obligations.BiasRomFollowsItsConstruction := by
  intro l hl
  obtain ⟨b, g, hread, hg, hb⟩ := memReadB_l10u_of_le hl
  have hrow : 2 ^ (31 - l) < 2 ^ 32 := Nat.pow_lt_pow_right (by omega) (by omega)
  exact ⟨g, b, (countP_thresholdNumber_lt hrow hg).symm, hg, hread, hb.trans (biasNumber_eq_of_threshold hl g)⟩

/-- Settles O22. -/
theorem biasWordYieldsTheDigitCount : Obligations.BiasWordYieldsTheDigitCount := fun v =>
  ⟨_, memReadB_of_lt l10u _ (clz32 v).isLt, add_biasWord_le v, biasWord_yields_digitCount v⟩

/-- A guess for a 32-bit operand is an index of `T`. -/
theorem le_nine_of_isGuess {x : Word32} {g : Nat} (hg : IsGuess x.toNat g) : g ≤ 9 :=
  le_nine_of_ten_pow_le x.isLt hg.1

/-- R58: the operations of code 0 to 5 never answer IndexError. -/
theorem evalInstr_ne_indexError {i : Instr} (hi : (opcode i).toNat ≤ 5) :
    evalInstr l10u i ≠ .error .indexError := by
  intro hanswer
  have hrule := evalInstr_followsRules i
  rw [hanswer] at hrule
  have hcode : (if i.operand = 0 then 1 else 0 : BitVec 2) = 2 := (errorRule_of_le_five _ hi).symm.trans hrule
  split at hcode <;> exact absurd hcode (by decide)

/-- Settles O23. -/
theorem romReadsStayInRange : Obligations.RomReadsStayInRange := by
  refine ⟨fun i => memReadT_l10u_of_le, fun l => memReadB_l10u_of_le, fun v => ?_, fun i => evalInstr_ne_indexError,
    fun x => ⟨evalRomt_of_ge l10u x, evalRomb_of_ge l10u x⟩⟩
  exact ⟨le_nine_of_isGuess (guessW_isGuess v), le_nine_of_isGuess (guessD_isGuess v),
    le_nine_of_isGuess (guessQ_isGuess v), Nat.le_of_lt_succ (clz32 v).isLt⟩

end Sys2Proof.Machine
end

section
/-! The encoding (30_encoding.md R27 to R30): the command word as a number and as text, the decoder on all 2^35 words, and what
can go wrong with an operand. -/

namespace Sys2Proof.Machine

section commandWord

/-- R27: the two fields of an operation's command word. -/
@[simp] theorem encode_extract_op (i : Instr) : (encode i).extractLsb' 32 3 = opcode i :=
  extract_op (opcode i) i.operand

@[simp] theorem encode_extract_operand (i : Instr) : (encode i).extractLsb' 0 32 = i.operand :=
  extract_operand (opcode i) i.operand

/-- R30: every command word is some operation's. -/
theorem exists_encode_eq (c : Cmd) : ∃ i : Instr, encode i = c := by
  obtain ⟨i, hop, hx⟩ := exists_instr_of_ports (c.extractLsb' 32 3) (c.extractLsb' 0 32)
  exact ⟨i, by rw [encode, hop, hx, append_extract]⟩

theorem encode_decodeCmd (c : Cmd) : encode (decodeCmd c) = c := by
  obtain ⟨i, rfl⟩ := exists_encode_eq c
  rw [decodeCmd_encode]

end commandWord

section faults
variable {f : Fault}

theorem errCode_eq_one : errCode f = 1 ↔ f = .domainError := by cases f <;> decide

theorem errCode_eq_two : errCode f = 2 ↔ f = .indexError := by cases f <;> decide

/-- One case of R58, a code or 0, that gives the code of an exception. -/
theorem of_ite_eq_errCode {p : Prop} [Decidable p] {e : BitVec 2} (h : (if p then e else 0) = errCode f) :
    p ∧ errCode f = e := by
  split at h
  · exact ⟨‹p›, h.symm⟩
  · exact absurd h.symm (errCode_ne_zero f)

/-- The decision procedure of R58 read backwards: the cause of each exception. -/
theorem cause_of_errorRule {op : Op} {x : Word32} (h : errorRule op x = errCode f) :
    (f = .domainError ∧ op.toNat ≤ 5 ∧ x = 0) ∨
    (f = .indexError ∧ op = 6 ∧ 9 < x.toNat) ∨
    (f = .indexError ∧ op = 7 ∧ 31 < x.toNat) := by
  have hop : op.toNat ≤ 5 ∨ op = 6#3 ∨ op = 7#3 := by bv_omega
  rcases hop with hop | rfl | rfl
  · rw [errorRule_of_le_five x hop] at h
    obtain ⟨hx, hcode⟩ := of_ite_eq_errCode h
    exact .inl ⟨errCode_eq_one.mp hcode, hop, hx⟩
  · rw [errorRule_romt] at h
    obtain ⟨hx, hcode⟩ := of_ite_eq_errCode h
    exact .inr (.inl ⟨errCode_eq_two.mp hcode, rfl, hx⟩)
  · rw [errorRule_romb] at h
    obtain ⟨hx, hcode⟩ := of_ite_eq_errCode h
    exact .inr (.inr ⟨errCode_eq_two.mp hcode, rfl, hx⟩)

/-- An evaluation that answers a fault has the code that R58 gives its operation and operand. -/
theorem errorRule_of_evalInstr_error {i : Instr} (h : evalInstr l10u i = .error f) :
    errorRule (opcode i) i.operand = errCode f := by
  have hrule := evalInstr_followsRules i
  rwa [h] at hrule

end faults

/-- Settles O2: a command word is the encoding of the operation it selects, and a fault has the cause R58 gives its code. -/
theorem everyCommandWordSelectsOneOperation : Obligations.EveryCommandWordSelectsOneOperation := by
  refine ⟨decodeCmd_encode, encode_decodeCmd, fun c f hfault => ?_⟩
  obtain ⟨i, rfl⟩ := exists_encode_eq c
  rw [decodeCmd_encode] at hfault
  rw [encode_extract_op, encode_extract_operand]
  exact cause_of_errorRule (errorRule_of_evalInstr_error hfault)

section text

/-- A number of k + 1 hexadecimal digits is written as its first digit and the k digits of the rest. -/
theorem hexDigits_succ_of_lt {d : Nat} (hd : d < 16) (k n : Nat) (hn : n < 16 ^ k) :
    hexDigits (k + 1) (d * 16 ^ k + n) = hexDigit d :: hexDigits k n := by
  induction k generalizing n with
  | zero =>
    obtain rfl : n = 0 := by omega
    simp [hexDigits, Nat.mod_eq_of_lt hd]
  | succ k ih =>
    rw [pow_succ] at hn
    have hsplit : d * 16 ^ (k + 1) + n = 16 * (d * 16 ^ k) + n := by ring
    have hdiv : (d * 16 ^ (k + 1) + n) / 16 = d * 16 ^ k + n / 16 := by omega
    have hmod : (d * 16 ^ (k + 1) + n) % 16 = n % 16 := by omega
    rw [hexDigits, hdiv, hmod, ih (n / 16) (by omega)]
    rfl

/-- R27: the command word of an operation as a number. -/
theorem encode_toNat (i : Instr) : (encode i).toNat = (opcode i).toNat * 2 ^ 32 + i.operand.toNat :=
  append_toNat (opcode i) i.operand

/-- R27: the first of the nine digits is OP, the other eight are those of X. -/
theorem commandText_encode (i : Instr) :
    commandText (encode i) = ['0', 'x'] ++ hexDigit (opcode i).toNat :: hexDigits 8 i.operand.toNat := by
  rw [commandText, encode_toNat, show (2 : Nat) ^ 32 = 16 ^ 8 by norm_num,
    hexDigits_succ_of_lt (by omega) 8 _ i.operand.isLt]

end text

/-- Settles O1. -/
theorem commandWordIsOpThenOperand : Obligations.CommandWordIsOpThenOperand := fun i =>
  ⟨encode_toNat i, encode_extract_op i, encode_extract_operand i, commandText_encode i⟩

section index

/-- R58: executing an operation goes on with the code that the decision procedure gives for its operand. -/
theorem exec_errOut (i : Instr) (s : State) :
    ∃ t, exec i s = .next t ∧ t.errOut = errorRule (opcode i) i.operand := by
  have hrule := evalInstr_followsRules i
  rw [exec_eq_conclude]
  obtain ⟨o, ho, hnext⟩ | ⟨f, hf, hnext⟩ := conclude_cases (encode i) s (evalInstr l10u i)
  · rw [ho] at hrule
    exact ⟨_, hnext, hrule.1.symm⟩
  · exact ⟨_, hnext, (errorRule_of_evalInstr_error hf).symm⟩

/-- An operation is executed without error exactly when R58 says so. -/
theorem exec_without_error_iff (i : Instr) (s : State) :
    (∃ t, exec i s = .next t ∧ t.errOut = 0) ↔ i.accepted := by
  obtain ⟨t, hnext, hcode⟩ := exec_errOut i s
  rw [Instr.accepted, ← hcode]
  constructor
  · rintro ⟨u, hu, hzero⟩
    obtain rfl : t = u := Host.Outcome.next.inj (hnext.symm.trans hu)
    exact hzero
  · exact fun hzero => ⟨t, hnext, hzero⟩

/-- One case of R58 gives 0 exactly when its condition fails. -/
theorem ite_errCode_eq_zero_iff {p : Prop} [Decidable p] (f : Fault) : (if p then errCode f else 0) = 0 ↔ ¬ p := by
  rw [ite_eq_right_iff]
  exact forall_congr' fun _ => iff_false_intro (errCode_ne_zero f)

/-- R29: the accessors are accepted on the whole operand as an index. -/
theorem romt_accepted_iff (x : Word32) : (Instr.romt x).accepted ↔ x.toNat ≤ 9 :=
  (ite_errCode_eq_zero_iff .indexError).trans Nat.not_lt

theorem romb_accepted_iff (x : Word32) : (Instr.romb x).accepted ↔ x.toNat ≤ 31 :=
  (ite_errCode_eq_zero_iff .indexError).trans Nat.not_lt

end index

/-- Settles O6: an accessor signals no error exactly when it is accepted. -/
theorem wholeOperandIsTheIndex : Obligations.WholeOperandIsTheIndex := fun x s =>
  ⟨fun i => ⟨rfl, (encode_extract_operand i).symm⟩,
    (exec_without_error_iff _ s).trans (romt_accepted_iff x),
    (exec_without_error_iff _ s).trans (romb_accepted_iff x)⟩

end Sys2Proof.Machine
end

section
/-! How wide a result is (30_encoding.md R34), operation by operation, from the data rule of R12. -/

namespace Sys2Proof.Machine

section widths
variable {op : Op} {x : Nat} {r : Word64} {guess : BitVec 4} {corr : BitVec 1}

/-- R35, R36: LZC and HSB answer a bit index. -/
theorem le_31_of_dataRule (hop : op.toNat ≤ 1) (hx : x < 2 ^ 32) (h : dataRule op x r guess corr) :
    r.toNat ≤ 31 := by
  have hcases : op = 0#3 ∨ op = 1#3 := by bv_omega
  rcases hcases with rfl | rfl
  · obtain ⟨⟨k, -, hsum⟩, -, -⟩ := (dataRule_lzc ..).mp h
    omega
  · obtain ⟨⟨hlo, -⟩, -, -⟩ := (dataRule_hsb ..).mp h
    exact Nat.le_of_lt_succ ((Nat.pow_lt_pow_iff_right (by omega)).mp (hlo.trans_lt hx))

/-- R42: the four digit-count operations answer the digit count. -/
theorem isDigitCount_of_dataRule (hop : 2 ≤ op.toNat ∧ op.toNat ≤ 5) (h : dataRule op x r guess corr) :
    IsDigitCount x r.toNat := by
  have hcases : op = 2#3 ∨ op = 3#3 ∨ op = 4#3 ∨ op = 5#3 := by bv_omega
  rcases hcases with rfl | rfl | rfl | rfl
  · obtain ⟨_, k, -, hk, hr, -⟩ := (dataRule_ilog10W ..).mp h
    rwa [hr]
  · obtain ⟨_, _, k, -, -, hk, hr, -⟩ := (dataRule_ilog10D ..).mp h
    rwa [hr]
  · obtain ⟨_, k, -, hk, hr, -⟩ := (dataRule_ilog10Q ..).mp h
    rwa [hr]
  · exact ((dataRule_ilog10L ..).mp h).1

/-- R34: the bits of a result from its width upwards are zeros. -/
theorem extractLsb'_eq_zero_of_lt {k : Nat} (n : Nat) (h : r.toNat < 2 ^ k) : r.extractLsb' k n = 0 := by
  apply BitVec.eq_of_toNat_eq
  rw [BitVec.extractLsb'_toNat, Nat.shiftRight_eq_div_pow, Nat.div_eq_of_lt h]
  rfl

end widths

section accessors
variable {x : Word32} {o : Outputs}

/-- R39: ROMT answers data from the word of `T` it reads. -/
theorem romt_data (h : evalInstr l10u (.romt x) = .ok o) :
    ∃ w, memReadT l10u x.toNat = .ok w ∧ o.r = w.setWidth 64 := by
  rcases Nat.lt_or_ge x.toNat 10 with hlt | hge
  · obtain rfl := Except.ok.inj ((evalRomt_of_lt l10u x hlt).symm.trans h)
    exact ⟨_, memReadT_of_lt l10u _ hlt, rfl⟩
  · cases (evalRomt_of_ge l10u x hge).symm.trans h

/-- R40: ROMB answers the word of `B` it reads. -/
theorem romb_data (h : evalInstr l10u (.romb x) = .ok o) : memReadB l10u x.toNat = .ok o.r := by
  rcases Nat.lt_or_ge x.toNat 32 with hlt | hge
  · obtain rfl := Except.ok.inj ((evalRomb_of_lt l10u x hlt).symm.trans h)
    exact memReadB_of_lt l10u _ hlt
  · cases (evalRomb_of_ge l10u x hge).symm.trans h

end accessors

/-- An operation is known from its code and its operand (R28). -/
theorem eq_of_opcode_of_operand {i j : Instr} (hop : opcode i = opcode j) (hx : i.operand = j.operand) : i = j := by
  rw [← decodePorts_opcode i, ← decodePorts_opcode j, hop, hx]

/-- Settles O35: the two families by the bound on their results, the two accessors by the word they read. -/
theorem resultsAreZeroExtended : Obligations.ResultsAreZeroExtended := by
  intro i o hanswer
  have hrule := evalInstr_followsRules i
  rw [hanswer] at hrule
  obtain ⟨-, hdata⟩ := hrule
  refine ⟨fun hop => ?_, fun hop => ?_, fun hop => ?_, fun hop => ?_⟩
  · have hr := le_31_of_dataRule hop i.operand.isLt hdata
    exact ⟨hr, extractLsb'_eq_zero_of_lt 59 (by omega)⟩
  · have hr := le_nine_of_ten_pow_le i.operand.isLt (isDigitCount_of_dataRule hop hdata).1
    exact ⟨hr, extractLsb'_eq_zero_of_lt 60 (by omega)⟩
  · rw [eq_of_opcode_of_operand (j := .romt i.operand) hop rfl] at hanswer
    obtain ⟨w, hread, hr⟩ := romt_data hanswer
    rw [hr, hread]
    refine ⟨extractLsb'_eq_zero_of_lt 32 ?_, ?_⟩
    · exact (BitVec.toNat_setWidth_of_le (by omega)).trans_lt w.isLt
    · rw [← BitVec.setWidth_eq_extractLsb' (by omega), BitVec.setWidth_setWidth_of_le _ (by omega), BitVec.setWidth_eq]
  · rw [eq_of_opcode_of_operand (j := .romb i.operand) hop rfl] at hanswer
    exact romb_data hanswer

end Sys2Proof.Machine
end

section
/-! The pseudo-operations (30_encoding.md R33). -/

namespace Sys2Proof.Machine

/-- R32, R33: a literal in range assembles to what its mnemonic expands to. -/
theorem assemble_of_wf {c : SourceCmd} (h : c.wf) :
    assemble c = .ok (expand c.mnemonic (BitVec.ofNat 32 c.operand)) :=
  if_pos h

/-- R32: whether a literal is in range does not depend on the mnemonic. -/
theorem wf_of_le (m : Mnemonic) {v : Nat} (h : v ≤ 4294967295) : (SourceCmd.mk m v).wf :=
  decide_eq_true h

/-- Settles O46: each mnemonic's line of `expand`. -/
theorem pseudoOperationsExpandToOneCommand : Obligations.PseudoOperationsExpandToOneCommand := fun _ hv =>
  ⟨assemble_of_wf (wf_of_le .ilog10 hv), assemble_of_wf (wf_of_le .warren hv), assemble_of_wf (wf_of_le .dga hv),
    assemble_of_wf (wf_of_le .quaternic hv), assemble_of_wf (wf_of_le .willet hv), assemble_of_wf (wf_of_le .clz hv)⟩

end Sys2Proof.Machine
end

section
/-! The bit primitives (40_bit_primitives.md R35 to R38): the laws of `clz32` and `msb32`, and what executing LZC and HSB does to
the ports. -/

namespace Sys2Proof.Machine

section laws

/-- R37: the two counts are complements of each other. -/
theorem clz32_add_msb32 (v : NonZero) : (clz32 v).val + (msb32 v).val = 31 := by
  rw [msb32_eq]
  omega

/-- Halving a number takes one from the index of its highest set bit. -/
theorem isTopBit_succ_of_half {x h : Nat} (hhalf : IsTopBit (x / 2) h) : IsTopBit x (h + 1) := by
  obtain ⟨hlo, hhi⟩ := hhalf
  rw [pow_succ] at hhi
  constructor
  · rw [pow_succ]
    omega
  · rw [pow_succ, pow_succ]
    omega

/-- R37: shifting right by one takes one from the highest-set-bit index. -/
theorem msb32_eq_succ_of_shiftRight {v w : NonZero} (hw : w.val = v.val >>> 1) :
    (msb32 v).val = (msb32 w).val + 1 := by
  have hhalf : w.val.toNat = v.val.toNat / 2 := by
    rw [hw, BitVec.toNat_ushiftRight, Nat.shiftRight_eq_div_pow, pow_one]
  have htop := msb32_isTopBit w
  rw [hhalf] at htop
  exact isTopBit_unique _ _ _ (msb32_isTopBit v) (isTopBit_succ_of_half htop)

/-- R37: shifting right by one adds one leading zero. -/
theorem clz32_eq_succ_of_shiftRight {v w : NonZero} (hw : w.val = v.val >>> 1) :
    (clz32 w).val = (clz32 v).val + 1 := by
  have hmsb := msb32_eq_succ_of_shiftRight hw
  have hsumV := clz32_add_msb32 v
  have hsumW := clz32_add_msb32 w
  omega

/-- R37: setting the three lowest bits raises an index below 2 to 2. Shifted right by one the word is the operand that ILOG10.Q
prepares, whose index R47 gives. -/
theorem msb32_of_or_seven {v w : NonZero} (hw : w.val = v.val ||| 7) : (msb32 w).val = max (msb32 v).val 2 := by
  have hprepared : (quaternicOperand v.val).val = w.val >>> 1 := by rw [hw]; rfl
  rw [msb32_eq_succ_of_shiftRight hprepared, msb32_quaternicOperand]
  omega

end laws

/-- Settles O17. -/
theorem bitPrimitiveLaws : Obligations.BitPrimitiveLaws := fun v =>
  ⟨clz32_add_msb32 v, msb32_isTopBit v, ⟨msb32_bit v, above_msb32 v⟩,
    fun _ => clz32_eq_succ_of_shiftRight, fun _ => msb32_of_or_seven⟩

section execution
variable {i : Instr}

/-- An operation that answers data drives them on the outputs and changes nothing else. -/
theorem exec_of_evalInstr_ok {o : Outputs} (h : evalInstr l10u i = .ok o) (s : State) :
    exec i s = .next (s.drive o) := by
  rw [exec_eq_conclude, h, conclude_ok]

/-- An operation that answers a fault signals its code (R56, R57). -/
theorem signals_of_evalInstr_error {f : Fault} (h : evalInstr l10u i = .error f) (s : State) :
    signals i s (errCode f) := by
  refine ⟨s.raise f (encode i), ?_, State.raise_errOut .., State.raise_sample .., rfl, rfl⟩
  rw [exec_eq_conclude, h, conclude_error]

end execution

/-- Settles O9: the count is `clz32`, so that 31 minus the count is the highest-set-bit index. -/
theorem lzcCountsLeadingZeros : Obligations.LzcCountsLeadingZeros := by
  refine fun x s => ⟨rfl, ?_, fun hx => ?_⟩
  · rintro rfl
    exact ⟨evalLzc_zero, signals_of_evalInstr_error (i := .lzc 0) evalLzc_zero s⟩
  · obtain ⟨v, rfl⟩ : ∃ v : NonZero, v.val = x := ⟨⟨x, hx⟩, rfl⟩
    have hlt := (clz32 v).isLt
    obtain ⟨hlo, hhi⟩ := msb32_isTopBit v
    rw [msb32_eq, show 31 - (clz32 v).val + 1 = 32 - (clz32 v).val by omega] at hhi
    exact ⟨(clz32 v).val, by omega, hlo, hhi, msb32_bit v, above_msb32 v,
      exec_of_evalInstr_ok (i := .lzc v.val) (evalLzc_of_ne v) s⟩

/-- Settles O10: the index is `msb32`. -/
theorem hsbIsTheTopBitIndex : Obligations.HsbIsTheTopBitIndex := by
  refine fun x s => ⟨rfl, ?_, fun hx => ?_⟩
  · rintro rfl
    exact ⟨evalHsb_zero, signals_of_evalInstr_error (i := .hsb 0) evalHsb_zero s⟩
  · obtain ⟨v, rfl⟩ : ∃ v : NonZero, v.val = x := ⟨⟨x, hx⟩, rfl⟩
    exact ⟨(msb32 v).val, msb32_eq v, Nat.le_of_lt_succ (msb32 v).isLt, msb32_isTopBit v,
      exec_of_evalInstr_ok (i := .hsb v.val) (evalHsb_of_ne v) s⟩

/-- R38: an operation of code 0 or 1 that answers data shows no guess and no comparison. -/
theorem no_guess_of_opcode_le_one {i : Instr} {o : Outputs} (hop : (opcode i).toNat ≤ 1)
    (h : evalInstr l10u i = .ok o) : o.guess = 0 ∧ o.corr = 0 := by
  have hrule := evalInstr_followsRules i
  rw [h] at hrule
  obtain ⟨-, hdata⟩ := hrule
  have hcases : opcode i = 0#3 ∨ opcode i = 1#3 := by bv_omega
  rcases hcases with hcode | hcode <;> rw [hcode] at hdata
  · exact ((dataRule_lzc ..).mp hdata).2
  · exact ((dataRule_hsb ..).mp hdata).2

/-- Settles O18: neither meaning takes the configuration, and the data follow the rule of the operation. -/
theorem bitPrimitivesReadNoRom : Obligations.BitPrimitivesReadNoRom := by
  intro x cfg i hi
  have hcases : i = .lzc x ∨ i = .hsb x := by simpa using hi
  rcases hcases with rfl | rfl
  · exact ⟨rfl, fun _ => no_guess_of_opcode_le_one (by simp)⟩
  · exact ⟨rfl, fun _ => no_guess_of_opcode_le_one (by simp)⟩

end Sys2Proof.Machine
end

section
/-! The table accessors (41_threshold_rom.md R39 to R41): what ROMT and ROMB answer under every configuration, and what executing
them does to the ports. -/

namespace Sys2Proof.Machine

section answers
variable {cfg : Config} {x : Word32} {o : Outputs}

/-- R41: with an index in range ROMT answers from the one word of `T` it reads. -/
theorem evalRomt_eq_map_memReadT (hx : x.toNat ≤ 9) :
    evalRomt cfg x = (memReadT cfg x.toNat).map fun w => .plain (w.setWidth 64) := by
  have hlt : x.toNat < 10 := by omega
  rw [evalRomt_of_lt cfg x hlt, memReadT_of_lt cfg _ hlt, Except.map]

/-- R41: with an index in range ROMB answers the one word of `B` it reads. -/
theorem evalRomb_eq_map_memReadB (hx : x.toNat ≤ 31) :
    evalRomb cfg x = (memReadB cfg x.toNat).map .plain := by
  have hlt : x.toNat < 32 := by omega
  rw [evalRomb_of_lt cfg x hlt, memReadB_of_lt cfg _ hlt, Except.map]

/-- R41: data of ROMT come without a guess and a comparison. -/
theorem evalRomt_ok_plain (h : evalRomt cfg x = .ok o) : ∃ r, o = .plain r := by
  rcases Nat.lt_or_ge x.toNat 10 with hlt | hge
  · exact ⟨_, Except.ok.inj (h.symm.trans (evalRomt_of_lt cfg x hlt))⟩
  · cases (evalRomt_of_ge cfg x hge).symm.trans h

/-- R41: data of ROMB come without a guess and a comparison. -/
theorem evalRomb_ok_plain (h : evalRomb cfg x = .ok o) : ∃ r, o = .plain r := by
  rcases Nat.lt_or_ge x.toNat 32 with hlt | hge
  · exact ⟨_, Except.ok.inj (h.symm.trans (evalRomb_of_lt cfg x hlt))⟩
  · cases (evalRomb_of_ge cfg x hge).symm.trans h

end answers

/-- Settles O15: the word read is the threshold number (R15), and its zero extension is what the step drives. -/
theorem romtReadsTheThresholdWord : Obligations.RomtReadsTheThresholdWord := by
  refine fun x s => ⟨rfl, fun hge => ?_, fun hle => ?_⟩
  · have hfault := evalRomt_of_ge l10u x hge
    exact ⟨hfault, signals_of_evalInstr_error (i := .romt x) hfault s⟩
  · obtain ⟨w, hread, hw⟩ := memReadT_l10u_of_le hle
    have hdata : evalInstr l10u (.romt x) = .ok (.plain (w.setWidth 64)) := by
      rw [evalInstr, evalRomt_eq_map_memReadT hle, hread, Except.map]
    refine ⟨w, hread, hw, ?_⟩
    rw [BitVec.ofNat_toNat]
    exact exec_of_evalInstr_ok hdata s

/-- Settles O16: the word read is the bias number of its row (R17), and the step drives all of it. -/
theorem rombReadsTheBiasWord : Obligations.RombReadsTheBiasWord := by
  refine fun x s => ⟨rfl, fun hge => ?_, fun hle => ?_⟩
  · have hfault := evalRomb_of_ge l10u x hge
    exact ⟨hfault, signals_of_evalInstr_error (i := .romb x) hfault s⟩
  · obtain ⟨b, g, hread, hg, hb⟩ := memReadB_l10u_of_le hle
    have hdata : evalInstr l10u (.romb x) = .ok (.plain b) := by
      rw [evalInstr, evalRomb_eq_map_memReadB hle, hread, Except.map]
    exact ⟨b, hread, ⟨g, hg, hb⟩, exec_of_evalInstr_ok hdata s⟩

/-- Settles O25: in range each accessor maps its one read to plain outputs; out of range the index test answers before any read. -/
theorem accessorsReadOneWordAndShowNoGuess : Obligations.AccessorsReadOneWordAndShowNoGuess := by
  refine fun x cfg => ⟨fun f hf o ho => ?_, evalRomt_eq_map_memReadT, evalRomb_eq_map_memReadB,
    evalRomt_of_ge cfg x, evalRomb_of_ge cfg x⟩
  have hcases : f = .romt ∨ f = .romb := by simpa using hf
  have hplain : ∃ r, o = .plain r := by
    rcases hcases with rfl | rfl
    · exact evalRomt_ok_plain ho
    · exact evalRomb_ok_plain ho
  obtain ⟨r, rfl⟩ := hplain
  exact ⟨rfl, rfl⟩

end Sys2Proof.Machine
end

section
/-! The correction step (42_digit_count.md R43, R44): the one comparison that a guess is corrected by, and the three operations
that form a guess. -/

namespace Sys2Proof.Machine

/-- R43: `w` is the word of `T` that the guess `g` for the operand `x` selects, `c` the comparison of `x` with it, and their sum
the digit count of `x`. -/
structure Comparison (x : Word32) (g : Nat) (w : Word32) (c : Nat) : Prop where
  read : memReadT l10u g = .ok w
  comparator : c = if w < x then 1 else 0
  count : IsDigitCount x.toNat (g + c)

/-- R43: every guess has its comparison. -/
theorem exists_comparison_of_isGuess {x : Word32} {g : Nat} (hg : IsGuess x.toNat g) : ∃ w c, Comparison x g w c := by
  obtain ⟨w, hread, hw⟩ := memReadT_l10u_of_le (le_nine_of_isGuess hg)
  refine ⟨w, _, hread, rfl, ?_⟩
  simp only [BitVec.lt_def, hw]
  exact isDigitCount_of_isGuess x.isLt hg

namespace Comparison
variable {x w : Word32} {g c : Nat} (h : Comparison x g w c)
include h

theorem le_one : c ≤ 1 := by
  rw [h.comparator]
  split <;> omega

theorem comparator_toNat : c = if w.toNat < x.toNat then 1 else 0 := by
  rw [h.comparator]
  simp only [BitVec.lt_def]

/-- R42: the corrected guess is a digit index. -/
theorem sum_le_nine : g + c ≤ 9 :=
  le_nine_of_ten_pow_le x.isLt h.count.1

/-- R44: where the comparison answers 1, and only there, the guess is below the digit count. -/
theorem eq_one_iff : c = 1 ↔ 10 ^ (g + 1) ≤ x.toNat := by
  have hle := h.le_one
  rw [ten_pow_le_iff_of_isDigitCount h.count]
  omega

theorem eq_zero_of_lt (hx : x.toNat < 10 ^ (g + 1)) : c = 0 := by
  have hle := h.le_one
  have hne : c ≠ 1 := fun hone => absurd (h.eq_one_iff.mp hone) (not_le.mpr hx)
  omega

/-- R54: no operand exceeds the last word of `T`. -/
theorem not_lt_of_nine (hg : g = 9) : ¬ w < x := by
  intro hlt
  have hsum := h.sum_le_nine
  rw [h.comparator, if_pos hlt] at hsum
  omega

/-- R43: what the correction step drives, in terms of the guess and the comparison. -/
theorem correct_eq :
    correct l10u g x = .ok ⟨BitVec.ofNat 64 (g + c), BitVec.ofNat 4 g, BitVec.ofNat 1 c⟩ := by
  have hbit : BitVec.ult w x = decide (w < x) := rfl
  rw [correct, h.read, h.comparator]
  by_cases hlt : w < x <;> simp [Outputs.corrected, hbit, hlt, bind, Except.bind, pure, Except.pure]

end Comparison

/-- The operation `i` forms the guess `g` for its operand, within the bound of R44, and corrects it. -/
def FormsGuess (i : Instr) (g : Nat) : Prop :=
  evalInstr l10u i = correct l10u g i.operand ∧ IsGuess i.operand.toNat g

section guesses
variable (v : NonZero)

theorem ilog10W_formsGuess : FormsGuess (.ilog10W v.val) (guessW v) :=
  ⟨evalIlog10W_of_ne l10u v, guessW_isGuess v⟩

theorem ilog10D_formsGuess : FormsGuess (.ilog10D v.val) (guessD dgaMaskWord v) :=
  ⟨evalIlog10D_of_ne l10u v, guessD_isGuess v⟩

theorem ilog10Q_formsGuess : FormsGuess (.ilog10Q v.val) (guessQ v) :=
  ⟨evalIlog10Q_of_ne l10u v, guessQ_isGuess v⟩

end guesses

/-- An operation that forms a guess drives it with its comparison and their sum, and changes nothing else. -/
theorem FormsGuess.exec {i : Instr} {g : Nat} (h : FormsGuess i g) (s : State) :
    ∃ w c, Comparison i.operand g w c ∧
      exec i s = .next { s with
        rOut := BitVec.ofNat 64 (g + c), guessOut := BitVec.ofNat 4 g, corrOut := BitVec.ofNat 1 c, errOut := 0 } := by
  obtain ⟨heval, hguess⟩ := h
  obtain ⟨w, c, hcmp⟩ := exists_comparison_of_isGuess hguess
  exact ⟨w, c, hcmp, exec_of_evalInstr_ok (heval.trans hcmp.correct_eq) s⟩

/-- The guess as the ports show it. -/
theorem FormsGuess.exec_guessOut {i : Instr} {g : Nat} (h : FormsGuess i g) (s : State) :
    ∃ t, Machine.exec i s = .next t ∧ t.guessOut = BitVec.ofNat 4 g ∧ t.guessOut.toNat = g := by
  obtain ⟨w, c, hcmp, hnext⟩ := h.exec s
  have hsum := hcmp.sum_le_nine
  exact ⟨_, hnext, rfl, Nat.mod_eq_of_lt (by omega)⟩

/-- R43: ILOG10.W, ILOG10.D and ILOG10.Q each form a guess for every operand other than 0. -/
theorem exists_formsGuess {f : Word32 → Instr} (hf : f ∈ [Instr.ilog10W, Instr.ilog10D, Instr.ilog10Q])
    {x : Word32} (hx : x ≠ 0) : ∃ g, (f x).operand = x ∧ FormsGuess (f x) g := by
  have hcases : f = .ilog10W ∨ f = .ilog10D ∨ f = .ilog10Q := by simpa using hf
  rcases hcases with rfl | rfl | rfl
  · exact ⟨_, rfl, ilog10W_formsGuess ⟨x, hx⟩⟩
  · exact ⟨_, rfl, ilog10D_formsGuess ⟨x, hx⟩⟩
  · exact ⟨_, rfl, ilog10Q_formsGuess ⟨x, hx⟩⟩

/-- R56: an operation of code 0 to 5 raises DomainError at X = 0. -/
theorem domainError_of_operand_zero {i : Instr} (hop : (opcode i).toNat ≤ 5) (hx : i.operand = 0) (s : State) :
    evalInstr l10u i = .error .domainError ∧ signals i s 1 := by
  have hrule := evalInstr_followsRules i
  have hone : errorRule (opcode i) i.operand = 1 := by rw [errorRule_of_le_five _ hop, if_pos hx]
  cases hanswer : evalInstr l10u i with
  | ok o =>
    rw [hanswer] at hrule
    exact absurd (hone.symm.trans hrule.1) (by decide)
  | error f =>
    obtain rfl : f = .domainError := errCode_eq_one.mp ((errorRule_of_evalInstr_error hanswer).symm.trans hone)
    exact ⟨rfl, signals_of_evalInstr_error hanswer s⟩

end Sys2Proof.Machine
end

section
/-! The four digit-count operations, one by one (42_digit_count.md R45 to R48). -/

namespace Sys2Proof.Machine

/-- R45: the rows whose scaled index is below the digit count of their smallest operand. -/
theorem guessW_low_rows : ∀ h ∈ [7, 10, 14, 17, 20, 21, 24, 27, 28, 30, 31], 10 ^ (9 * h / 32 + 1) ≤ 2 ^ h := by
  decide

/-- R45: the scaled index stays below 9. -/
theorem guessW_le_eight (v : NonZero) : guessW v ≤ 8 := by
  have hlt := (msb32 v).isLt
  rw [guessW_eq]
  omega

/-- Settles O11: the comparison answers 1 where the next power of ten is at most the operand. -/
theorem ilog10WCorrectsTheScaledIndex : Obligations.Ilog10WCorrectsTheScaledIndex := by
  refine fun x s => ⟨rfl, fun hx => domainError_of_operand_zero (i := .ilog10W x) (by simp) hx s, fun hx => ?_⟩
  obtain ⟨v, rfl⟩ : ∃ v : NonZero, v.val = x := ⟨⟨x, hx⟩, rfl⟩
  obtain ⟨w, c, hcmp, hnext⟩ := (ilog10W_formsGuess v).exec s
  have htop := msb32_isTopBit v
  refine ⟨(msb32 v).val, guessW v, w, c, htop, guessW_eq v, guessW_le_eight v, hcmp.read, hcmp.comparator_toNat,
    hcmp.sum_le_nine, fun hlarge => hcmp.eq_one_iff.mpr ?_, fun hrow => hcmp.eq_one_iff.mpr ?_, hnext⟩
  · calc 10 ^ (guessW v + 1) ≤ 10 ^ 9 := Nat.pow_le_pow_right (by omega) (Nat.succ_le_succ (guessW_le_eight v))
      _ ≤ v.val.toNat := hlarge
  · rw [guessW_eq]
    exact (guessW_low_rows _ hrow).trans htop.1

/-- R46: the rows in which an operand can exceed the threshold that the shifted mask counts up to. -/
theorem dgaMask_open_rows : ∀ l : Fin 32, 10 ^ (popcount32 (dgaMaskWord >>> l.val) + 1) < 2 ^ (31 - l.val + 1) →
    31 - l.val ∈ [3, 6, 9, 13, 16, 19, 23, 26, 29] := by
  decide

/-- Settles O12: where the comparison answers 1 the row contains a power of ten. -/
theorem ilog10DCountsTheShiftedMask : Obligations.Ilog10DCountsTheShiftedMask := by
  refine fun x s => ⟨rfl, rfl, fun hx => domainError_of_operand_zero (i := .ilog10D x) (by simp) hx s, fun hx => ?_⟩
  obtain ⟨v, rfl⟩ : ∃ v : NonZero, v.val = x := ⟨⟨x, hx⟩, rfl⟩
  obtain ⟨w, c, hcmp, hnext⟩ := (ilog10D_formsGuess v).exec s
  have htop := msb32_isTopBit v
  exact ⟨(msb32 v).val, (clz32 v).val, guessD dgaMaskWord v, w, c, htop, clz32_add_msb32 v, rfl, guessD_isDigitCount v,
    le_nine_of_isGuess (guessD_isGuess v), hcmp.read, hcmp.comparator_toNat, hcmp.sum_le_nine,
    fun hone => dgaMask_open_rows (clz32 v) ((hcmp.eq_one_iff.mp hone).trans_lt htop.2), hnext⟩

/-- Settles O13: the corner cases name the row of the operand and place it below or above the next power of ten. -/
theorem ilog10QScalesThePreparedIndex : Obligations.Ilog10QScalesThePreparedIndex := by
  refine fun x s => ⟨rfl, fun hx => domainError_of_operand_zero (i := .ilog10Q x) (by simp) hx s, fun hx => ?_⟩
  obtain ⟨v, rfl⟩ : ∃ v : NonZero, v.val = x := ⟨⟨x, hx⟩, rfl⟩
  obtain ⟨w, c, hcmp, hnext⟩ := (ilog10Q_formsGuess v).exec s
  have htop := msb32_isTopBit v
  have hprepared := msb32_isTopBit (quaternicOperand v.val)
  have hguess := guessQ_eq v
  have hlt := (msb32 v).isLt
  rw [msb32_quaternicOperand] at hprepared
  refine ⟨(msb32 v).val, max (msb32 v).val 2 - 1, guessQ v, w, c, htop, hprepared, rfl, by omega, by omega, hguess,
    le_nine_of_isGuess (guessQ_isGuess v), hcmp.read, hcmp.comparator_toNat, hcmp.sum_le_nine,
    fun hsmall => ?_, fun hrange => ?_, fun hlarge => ?_, hnext⟩
  · have hpow : 2 ^ (msb32 v).val < 2 ^ 3 := htop.1.trans_lt (Nat.lt_succ_of_le hsmall)
    have hrow : (msb32 v).val < 3 := (Nat.pow_lt_pow_iff_right (by omega)).mp hpow
    have hzero : guessQ v = 0 := by omega
    refine ⟨by omega, hzero, hcmp.eq_zero_of_lt ?_⟩
    rw [hzero, operand_ilog10Q]
    omega
  · have hrow : (msb32 v).val = 4 := isTopBit_unique _ _ _ htop ⟨hrange.1, Nat.lt_succ_of_le hrange.2⟩
    have hzero : guessQ v = 0 := by omega
    refine ⟨by omega, hzero, hcmp.eq_one_iff.mpr ?_⟩
    rw [hzero, operand_ilog10Q]
    omega
  · have hrow : (msb32 v).val = 31 := isTopBit_unique _ _ _ htop ⟨hlarge, v.val.isLt⟩
    have hnine : guessQ v = 9 := by omega
    refine ⟨by omega, hnine, hcmp.eq_zero_of_lt ?_⟩
    rw [hnine, operand_ilog10Q]
    omega

/-- R48: a sum that does not wrap, shifted right by 32, is its upper half. -/
theorem add_ushiftRight_eq {x : Word32} {b : Word64} (hsum : x.toNat + b.toNat ≤ 0x9FFFFFFFF) :
    (x.setWidth 64 + b) >>> 32 = BitVec.ofNat 64 ((x.toNat + b.toNat) / 2 ^ 32) := by
  apply BitVec.eq_of_toNat_eq
  rw [BitVec.toNat_ushiftRight, BitVec.toNat_add, BitVec.toNat_setWidth_of_le (by omega), Nat.mod_eq_of_lt (by omega),
    Nat.shiftRight_eq_div_pow, BitVec.toNat_ofNat, Nat.mod_eq_of_lt (by omega)]

/-- Settles O14: the bias word is the one of the operand's row (R18). -/
theorem ilog10LAddsTheBiasWord : Obligations.Ilog10LAddsTheBiasWord := by
  refine fun x s => ⟨rfl, fun hx => domainError_of_operand_zero (i := .ilog10L x) (by simp) hx s, fun hx => ?_⟩
  obtain ⟨v, rfl⟩ : ∃ v : NonZero, v.val = x := ⟨⟨x, hx⟩, rfl⟩
  have hsum := add_biasWord_le v
  have hhalf := add_ushiftRight_eq hsum
  have hcount := biasWord_yields_digitCount v
  rw [hhalf, BitVec.toNat_ofNat, Nat.mod_eq_of_lt (by omega)] at hcount
  refine ⟨(msb32 v).val, (clz32 v).val, _, msb32_isTopBit v, clz32_add_msb32 v, memReadB_of_lt l10u _ (clz32 v).isLt,
    hsum, hcount, ?_⟩
  simp only [l10u_bias]
  rw [← hhalf]
  exact exec_of_evalInstr_ok (i := .ilog10L v.val) (evalIlog10L_of_ne l10u v) s

end Sys2Proof.Machine
end

section
/-! What the digit-count operations have in common (42_digit_count.md R42 to R44, R49 to R52, R54). -/

namespace Sys2Proof.Machine

/-- Every number other than 0 has a digit count. -/
theorem exists_isDigitCount {x : Nat} (hx : x ≠ 0) : ∃ k, IsDigitCount x k :=
  ⟨Nat.log 10 x, Nat.pow_log_le_self 10 hx, Nat.lt_pow_succ_log_self (by omega) x⟩

/-- R51: below UINT32_MAX the successor does not wrap. -/
theorem toNat_add_one_of_le {x : Word32} (hx : x.toNat ≤ 4294967294) : (x + 1).toNat = x.toNat + 1 := by
  bv_omega

section digitCountOps
variable {f : Word32 → Instr} (hf : f ∈ [Instr.ilog10W, Instr.ilog10D, Instr.ilog10Q, Instr.ilog10L])
include hf

/-- R28: the digit-count operations have the codes 2 to 5. -/
theorem opcode_of_digitCountOp (x : Word32) : 2 ≤ (opcode (f x)).toNat ∧ (opcode (f x)).toNat ≤ 5 := by
  have hcases : f = .ilog10W ∨ f = .ilog10D ∨ f = .ilog10Q ∨ f = .ilog10L := by simpa using hf
  rcases hcases with rfl | rfl | rfl | rfl <;> simp

theorem operand_of_digitCountOp (x : Word32) : (f x).operand = x := by
  have hcases : f = .ilog10W ∨ f = .ilog10D ∨ f = .ilog10Q ∨ f = .ilog10L := by simpa using hf
  rcases hcases with rfl | rfl | rfl | rfl <;> rfl

/-- R42: executing a digit-count operation drives the digit count of its operand, whichever of the four it is. -/
theorem exec_digitCountOp {x : Word32} {k : Nat} (hk : IsDigitCount x.toNat k) (s : State) :
    ∃ o, exec (f x) s = .next (s.drive o) ∧ o.r.toNat = k := by
  have hop := opcode_of_digitCountOp hf x
  have hrule := evalInstr_followsRules (f x)
  cases hanswer : evalInstr l10u (f x) with
  | ok o =>
    rw [hanswer] at hrule
    obtain ⟨-, hdata⟩ := hrule
    have hcount := isDigitCount_of_dataRule hop hdata
    rw [operand_of_digitCountOp hf] at hcount
    exact ⟨o, exec_of_evalInstr_ok hanswer s, isDigitCount_unique _ _ _ hcount hk⟩
  | error e =>
    have hcode := errorRule_of_evalInstr_error hanswer
    rw [errorRule_of_le_five _ hop.2, operand_of_digitCountOp hf] at hcode
    obtain ⟨rfl, -⟩ := of_ite_eq_errCode hcode
    exact absurd hk.1 (not_le.mpr (Nat.pow_pos (by omega)))

end digitCountOps

/-- Settles O27: `k` is the digit count of X. -/
theorem allVariantsGiveTheDigitCount : Obligations.AllVariantsGiveTheDigitCount := by
  refine fun x s => ⟨fun hx f hf => ?_, fun hx => ?_⟩
  · have hzero : (f x).operand = 0 := (operand_of_digitCountOp hf x).trans hx
    exact (domainError_of_operand_zero (opcode_of_digitCountOp hf x).2 hzero s).2
  · obtain ⟨k, hk⟩ := exists_isDigitCount (BitVec.toNat_ne_iff_ne.mpr hx)
    refine ⟨k, le_nine_of_ten_pow_le x.isLt hk.1, hk, fun f hf => ?_⟩
    obtain ⟨o, hnext, hr⟩ := exec_digitCountOp hf hk s
    refine ⟨_, hnext, ?_, rfl, rfl, rfl, rfl⟩
    rw [State.drive_rOut, ← hr, BitVec.ofNat_toNat, BitVec.setWidth_eq]

/-- Settles O28. -/
theorem correctionAddsTheComparator : Obligations.CorrectionAddsTheComparator := by
  intro x s hx f hf
  obtain ⟨g, hoperand, hguess⟩ := exists_formsGuess hf hx
  obtain ⟨w, c, hcmp, hnext⟩ := hguess.exec s
  rw [hoperand] at hcmp
  have hsum := hcmp.sum_le_nine
  have hone := hcmp.le_one
  have hguessOut : (BitVec.ofNat 4 g).toNat = g := Nat.mod_eq_of_lt (by omega)
  have hcorrOut : (BitVec.ofNat 1 c).toNat = c := Nat.mod_eq_of_lt (by omega)
  have hrOut : (BitVec.ofNat 64 (g + c)).toNat = g + c := Nat.mod_eq_of_lt (by omega)
  refine ⟨_, w, hnext, ?_⟩
  simp only [hguessOut, hcorrOut, hrOut, true_and]
  exact ⟨by omega, hcmp.read, hcmp.comparator, hcmp.count⟩

/-- Settles O29: the largest guesses are those for 4294967295. -/
theorem guessNeverExceedsTheDigitCount : Obligations.GuessNeverExceedsTheDigitCount := by
  refine fun s => ⟨fun x k hx hk f hf => ?_, fun x hx => ?_, ?_, fun f hf => ?_⟩
  · obtain ⟨g, hoperand, hguess⟩ := exists_formsGuess hf hx
    obtain ⟨hlo, hhi⟩ := hguess.2
    obtain ⟨t, hnext, -, hout⟩ := hguess.exec_guessOut s
    rw [hoperand] at hlo hhi
    have hle : g ≤ k := (ten_pow_le_iff_of_isDigitCount hk).mp hlo
    have hbelow : k < g + 2 := not_le.mp fun h => absurd ((ten_pow_le_iff_of_isDigitCount hk).mpr h) (not_le.mpr hhi)
    have hnine := le_nine_of_ten_pow_le x.isLt hlo
    exact ⟨t, hnext, by omega, by omega, by omega⟩
  · obtain ⟨t, hnext, -, hout⟩ := (ilog10W_formsGuess ⟨x, hx⟩).exec_guessOut s
    exact ⟨t, hnext, hout.trans_le (guessW_le_eight _)⟩
  · obtain ⟨t, hnext, hout, -⟩ := (ilog10W_formsGuess ⟨4294967295, by decide⟩).exec_guessOut s
    exact ⟨_, t, by decide, hnext, hout⟩
  · have hcases : f = .ilog10D ∨ f = .ilog10Q := by simpa using hf
    rcases hcases with rfl | rfl
    · obtain ⟨t, hnext, hout, -⟩ := (ilog10D_formsGuess ⟨4294967295, by decide⟩).exec_guessOut s
      exact ⟨_, t, by decide, hnext, hout⟩
    · obtain ⟨t, hnext, hout, -⟩ := (ilog10Q_formsGuess ⟨4294967295, by decide⟩).exec_guessOut s
      exact ⟨_, t, by decide, hnext, hout⟩

/-- Settles O30: the threshold is the last number of its digit count, and its successor the first of the next. -/
theorem thresholdsAreExact : Obligations.ThresholdsAreExact := by
  intro k hk
  obtain ⟨w, hread, hw⟩ := memReadT_l10u_of_le (i := k) (by omega)
  rw [thresholdNumber_of_lt (by omega)] at hw
  have hpos : 0 < 10 ^ k := Nat.pow_pos (by omega)
  have hnine : 10 ^ (k + 1) ≤ 10 ^ 9 := Nat.pow_le_pow_right (by omega) (by omega)
  have hten : 10 ^ (k + 1) = 10 ^ k * 10 := pow_succ ..
  have hnext : (w + 1).toNat = 10 ^ (k + 1) := by
    rw [toNat_add_one_of_le (by omega), hw]
    omega
  have hcountA : IsDigitCount w.toNat k := ⟨by omega, by omega⟩
  have hcountB : IsDigitCount (w + 1).toNat (k + 1) := by
    rw [hnext]
    exact ⟨le_rfl, Nat.pow_lt_pow_right (by omega) (by omega)⟩
  refine ⟨w, hread, hw, fun s f hf => ?_⟩
  obtain ⟨a, hexecA, hrA⟩ := exec_digitCountOp hf hcountA s
  obtain ⟨b, hexecB, hrB⟩ := exec_digitCountOp hf hcountB s
  exact ⟨_, _, hexecA, rfl, hrA, hexecB, rfl, hrB⟩

/-- R51 on numbers: the digit counts of a number and its successor. -/
theorem digitCount_succ_bounds {n k m : Nat} (hk : IsDigitCount n k) (hm : IsDigitCount (n + 1) m) :
    k ≤ m ∧ m ≤ k + 1 := by
  constructor
  · exact (ten_pow_le_iff_of_isDigitCount hm).mp (hk.1.trans (Nat.le_succ n))
  · exact (Nat.pow_le_pow_iff_right (a := 10) (by omega)).mp (hm.1.trans hk.2)

/-- Settles O31: in the range the successor of the operand does not wrap. -/
theorem digitCountIsMonotone : Obligations.DigitCountIsMonotone := by
  intro x s hlo hhi f hf
  have hsucc := toNat_add_one_of_le hhi
  obtain ⟨k, hk⟩ := exists_isDigitCount (x := x.toNat) (by omega)
  obtain ⟨m, hm⟩ := exists_isDigitCount (x := (x + 1).toNat) (by omega)
  obtain ⟨a, hexecA, hrA⟩ := exec_digitCountOp hf hk s
  obtain ⟨b, hexecB, hrB⟩ := exec_digitCountOp hf hm s
  rw [hsucc] at hm
  obtain ⟨hle, hjump⟩ := digitCount_succ_bounds hk hm
  refine ⟨_, _, hexecA, hexecB, ?_⟩
  rw [State.drive_rOut, State.drive_rOut, hrA, hrB]
  exact ⟨hle, hjump⟩

/-- Settles O33: the guesses and their sums by `Comparison`, the scaled indices by the range of the highest set bit. -/
theorem intermediateWidthsSuffice : Obligations.IntermediateWidthsSuffice := by
  intro v
  have hlt := (msb32 v).isLt
  have hprepared := msb32_quaternicOperand v
  refine ⟨by omega, by omega, le_nine_of_isGuess (guessD_isGuess v), fun g hg => ?_,
    _, memReadB_of_lt l10u _ (clz32 v).isLt, add_biasWord_le v⟩
  have hcases : g = guessW v ∨ g = guessD dgaMaskWord v ∨ g = guessQ v := by simpa using hg
  have hguess : IsGuess v.val.toNat g := by
    rcases hcases with hform | hform | hform <;> rw [hform]
    · exact guessW_isGuess v
    · exact guessD_isGuess v
    · exact guessQ_isGuess v
  obtain ⟨w, c, hcmp⟩ := exists_comparison_of_isGuess hguess
  have hsum := hcmp.sum_le_nine
  rw [hcmp.comparator] at hsum
  exact ⟨le_nine_of_isGuess hguess, w, hcmp.read, hsum, hcmp.not_lt_of_nine⟩

/-- Settles O32: the digit counts of 1 and of 4294967295 are 0 and 9. -/
theorem digitCountAtTheExtremes : Obligations.DigitCountAtTheExtremes := by
  intro s f hf
  have hfirst : IsDigitCount (1 : Word32).toNat 0 := by decide
  have hlast : IsDigitCount (4294967295 : Word32).toNat 9 := by decide
  obtain ⟨a, hexecA, hrA⟩ := exec_digitCountOp hf hfirst s
  obtain ⟨b, hexecB, hrB⟩ := exec_digitCountOp hf hlast s
  exact ⟨_, _, hexecA, BitVec.eq_of_toNat_eq hrA, hexecB, BitVec.eq_of_toNat_eq hrB⟩

end Sys2Proof.Machine
end

section
/-! The error code (60_exceptions.md R55, R58, R60): the code the host samples is the one the decision procedure gives for the
pair on the inputs, and it means how `eval` ended. -/

namespace Sys2Proof.Machine

section meaning

/-- R55: the four codes. -/
@[simp] theorem errMeaning_zero : errMeaning 0 = some (.ok ()) := rfl
@[simp] theorem errMeaning_one : errMeaning 1 = some (.error .domainError) := rfl
@[simp] theorem errMeaning_two : errMeaning 2 = some (.error .indexError) := rfl
@[simp] theorem errMeaning_three : errMeaning 3 = none := rfl

/-- The code of an exception means that exception. -/
@[simp] theorem errMeaning_errCode (f : Fault) : errMeaning (errCode f) = some (.error f) := by
  cases f with
  | domainError => exact errMeaning_one
  | indexError => exact errMeaning_two

/-- A code that means anything is not the impossible one. -/
theorem ne_three_of_errMeaning_eq_some {e : BitVec 2} {m : Except Fault Unit} (h : errMeaning e = some m) : e ≠ 3 := by
  rintro rfl
  rw [errMeaning_three] at h
  cases h

end meaning

section observed
variable {t : State} {e : Except Fault Outputs} (hsample : t.sample = observation e)
include hsample

/-- The code on the port is the code that was sampled. -/
theorem errOut_eq_of_sample : t.errOut = (observation e).err :=
  congrArg Sample.err hsample

/-- The code of an observed answer means how the evaluation ended: valid, or with that exception. -/
theorem errMeaning_of_sample : errMeaning t.errOut = some (e.map fun _ => ()) := by
  rw [errOut_eq_of_sample hsample]
  cases e with
  | ok o => exact errMeaning_zero
  | error f => exact errMeaning_errCode f

/-- R58: the code of an observed answer is the decision procedure's, once the answer follows the rules. -/
theorem errOut_of_sample {op : Op} {x : Word32} (hrule : FollowsRules op x e) : t.errOut = errorRule op x := by
  rw [errOut_eq_of_sample hsample]
  cases e with
  | ok o => exact hrule.1.symm
  | error f => exact hrule.symm

end observed

/-- The command on the inputs is decoded from the two ports (R27, R28). -/
theorem decodeCmd_command (s : State) : decodeCmd s.command = decodePorts s.op s.xIn := by
  rw [decodeCmd, State.command, extract_op, extract_operand]

/-- R12, for the pair on the ports: its evaluation answers what the rules give for it. -/
theorem evalInstr_decodePorts_followsRules (op : Op) (x : Word32) :
    FollowsRules op x (evalInstr l10u (decodePorts op x)) := by
  obtain ⟨i, rfl, rfl⟩ := exists_instr_of_ports op x
  rw [decodePorts_opcode]
  exact evalInstr_followsRules i

/-- Settles O37: the code that is sampled follows the rules, and having a meaning it is not 3. -/
theorem errorCodeFollowsTheDecisionProcedure : Obligations.ErrorCodeFollowsTheDecisionProcedure := by
  refine ⟨fun s => ?_, errMeaning_zero, errMeaning_one, errMeaning_two, errMeaning_three⟩
  obtain ⟨t, hstep, hsample⟩ := step_sample s
  rw [decodeCmd_command] at hsample
  have hmeaning := errMeaning_of_sample hsample
  exact ⟨t, hstep, errOut_of_sample hsample (evalInstr_decodePorts_followsRules s.op s.xIn),
    ne_three_of_errMeaning_eq_some hmeaning, hmeaning⟩

/-- Settles O39: the second evaluation is sampled as the answer to its own command, from the state that the error left and from
the state before alike. The argument holds after any first evaluation, so it has no use for the premise that the first one
signals an error. -/
theorem errorsDoNotStick : Obligations.ErrorsDoNotStick := by
  intro i j s _
  obtain ⟨t, hfirst, hsampleT⟩ := evaluate_sample i s
  obtain ⟨u, hsecond, hsampleU⟩ := evaluate_sample j t
  obtain ⟨v, halone, hsampleV⟩ := evaluate_sample j s
  exact ⟨t, u, v, hfirst, errOut_of_sample hsampleT (evalInstr_followsRules i), hsecond, halone,
    hsampleU.trans hsampleV.symm, errOut_of_sample hsampleU (evalInstr_followsRules j)⟩

end Sys2Proof.Machine
end

section
/-! The first evaluation (70_reset_and_hazards.md R68). Nothing has to be initialised: what is sampled after an evaluation, and
that the outputs are settled then, is the same from every state, and the reset state is one of them. -/

namespace Sys2Proof.Machine

/-- From any state, an evaluation is sampled as the answer of `eval` to its command and leaves the outputs settled. -/
theorem evaluate_sample_and_settles (i : Instr) (s : State) :
    ∃ t, evaluate i s = .next t ∧ t.sample = observation (evalInstr l10u i) ∧ t.settled := by
  obtain ⟨t, hnext, hsample⟩ := evaluate_sample i s
  obtain ⟨t', hstep, hsettled, -, -⟩ := everyStepSettlesTheOutputs (s.present i)
  obtain rfl : t = t' := Host.Outcome.next.inj (hnext.symm.trans hstep)
  exact ⟨t, hnext, hsample, hsettled⟩

/-- Settles O44: both evaluations are sampled as the answer of `eval` to the one command. The argument names no port of the
reset state, whose values are the model's choice. -/
theorem firstEvaluationIsOrdinary : Obligations.FirstEvaluationIsOrdinary := by
  intro i s
  obtain ⟨t, hfirst, hsampleT, hsettledT⟩ := evaluate_sample_and_settles i State.reset
  obtain ⟨u, hother, hsampleU, hsettledU⟩ := evaluate_sample_and_settles i s
  exact ⟨t, u, hfirst, hother, hsampleT.trans hsampleU.symm, hsettledT, hsettledU⟩

end Sys2Proof.Machine
end

section
/-! The command word taken apart (30_encoding.md sections 1, 2 and 4): the mask of the opcode table, the rejection of wider
numbers, and listed words. -/

namespace Sys2Proof.Machine

section mask

/-- R27: the command words with operand 0 are as many as the operations. -/
theorem append_zero_inj {m n : Op} : (m ++ 0#32 : Cmd) = n ++ 0#32 ↔ m = n := by
  constructor
  · intro h
    rw [← extract_op m 0#32, h, extract_op]
  · exact congrArg (· ++ 0#32)

/-- 30_encoding.md section 2: the match of operation n, its code followed by 32 zeros. -/
theorem ofNat_opcode_shifted (n : Op) : BitVec.ofNat 35 (n.toNat * 2 ^ 32) = (n ++ 0#32 : Cmd) := by
  apply BitVec.eq_of_toNat_eq
  have hn := n.isLt
  rw [append_toNat, BitVec.toNat_ofNat, Nat.mod_eq_of_lt (by omega), BitVec.toNat_zero, Nat.add_zero]

/-- 30_encoding.md section 2: the mask keeps the operation's code and clears the operand. -/
theorem encode_and_opMask (i : Instr) : encode i &&& 0x700000000 = (opcode i ++ 0#32 : Cmd) :=
  Laws.append_and_opMask (opcode i) i.operand

end mask

/-- Settles O3: a masked command word is the code it carries followed by 32 zeros. -/
theorem maskSelectsTheOperation : Obligations.MaskSelectsTheOperation := by
  intro c n
  obtain ⟨i, rfl⟩ := exists_encode_eq c
  rw [decodeCmd_encode, encode_and_opMask, ofNat_opcode_shifted, append_zero_inj]

section numbers
variable {w : Nat}

theorem decodeWord_of_lt (h : w < 2 ^ 35) : decodeWord w = .ok (decodeCmd (BitVec.ofNat 35 w)) :=
  if_pos h

theorem decodeWord_of_ge (h : 2 ^ 35 ≤ w) : decodeWord w = .error .notACommandWord :=
  if_neg (Nat.not_lt.mpr h)

/-- The decoder rejects exactly the numbers that do not fit a command word. -/
theorem decodeWord_eq_error_iff : decodeWord w = .error .notACommandWord ↔ 2 ^ 35 ≤ w := by
  refine ⟨fun hrejected => ?_, decodeWord_of_ge⟩
  by_contra hlt
  cases (decodeWord_of_lt (not_le.mp hlt)).symm.trans hrejected

/-- A command word among the host's 40 bits has no bit to be cleared. -/
theorem decodeTableWord_of_lt (h : w < 2 ^ 35) : decodeTableWord 40 w = some (decodeCmd (BitVec.ofNat 35 w)) := by
  rw [decodeTableWord, Nat.mod_eq_of_lt (by omega), decodeWord_of_lt h]
  rfl

end numbers

/-- Settles O4. -/
theorem onlyWiderNumbersAreRejected : Obligations.OnlyWiderNumbersAreRejected := fun _ =>
  ⟨decodeWord_eq_error_iff, fun hw => ⟨decodeWord_of_lt hw, decodeTableWord_of_lt hw⟩⟩

/-- A word decodes to the command it is the encoding of. -/
theorem decodeCmd_of_encode_eq {i : Instr} {c : Cmd} (h : encode i = c) : decodeCmd c = i := by
  rw [← h, decodeCmd_encode]

/-- Settles O5: each listed word is the encoding of its command. -/
theorem listedCommandWordsDecode : Obligations.ListedCommandWordsDecode :=
  ⟨decodeCmd_of_encode_eq rfl, decodeCmd_of_encode_eq rfl, decodeCmd_of_encode_eq rfl, decodeCmd_of_encode_eq rfl,
    decodeCmd_of_encode_eq rfl, decodeCmd_of_encode_eq rfl, decodeCmd_of_encode_eq rfl, decodeCmd_of_encode_eq rfl⟩

end Sys2Proof.Machine
end

section
/-! A step as an execution (10_state.md section 1, 70_reset_and_hazards.md R71): of the command a host presents, of the one on
the ports, and as the end of what `eval` answers. -/

namespace Sys2Proof.Machine

/-- Settles O8. -/
theorem executionIsTheEvaluation : Obligations.ExecutionIsTheEvaluation :=
  exec_eq_conclude

/-- R71: evaluating a command is executing it on the ports it was placed on. -/
theorem evaluate_eq_exec (i : Instr) (s : State) : evaluate i s = exec i (s.present i) := by
  rw [evaluate, step, State.present_command, decodeCmd_encode]

/-- Evaluating a command that answers data drives them and draws no free value. -/
theorem evaluate_of_evalInstr_ok {i : Instr} {o : Outputs} (h : evalInstr l10u i = .ok o) (s : State) :
    evaluate i s = .next ((s.present i).drive o) :=
  (evaluate_eq_exec i s).trans (exec_of_evalInstr_ok h _)

theorem step_eq_exec (s : State) : step s = exec (decodePorts s.op s.xIn) s := by
  rw [step, decodeCmd_command]

/-- R27: an operation's command word, cut at bit 32, is the pair that the host presents. -/
theorem withFetchWord_encode (i : Instr) (s : State) : s.withFetchWord 40 (encode i).toNat = s.present i := by
  have hop := (opcode i).isLt
  have hx := i.operand.isLt
  have hfits : (encode i).toNat % 2 ^ 40 = (opcode i).toNat * 2 ^ 32 + i.operand.toNat := by
    rw [encode_toNat]
    omega
  have hcode : BitVec.ofNat 3 ((encode i).toNat % 2 ^ 40 / 2 ^ 32) = opcode i := by
    rw [hfits, show ((opcode i).toNat * 2 ^ 32 + i.operand.toNat) / 2 ^ 32 = (opcode i).toNat by omega,
      BitVec.ofNat_toNat, BitVec.setWidth_eq]
  have hoperand : BitVec.ofNat 32 ((encode i).toNat % 2 ^ 40) = i.operand := by
    apply BitVec.eq_of_toNat_eq
    rw [hfits, BitVec.toNat_ofNat]
    omega
  rw [State.withFetchWord, hcode, hoperand, State.present]

/-- Settles O7. -/
theorem stepRunsThePresentedCommand : Obligations.StepRunsThePresentedCommand := fun i s =>
  ⟨evaluate_eq_exec i s, step_eq_exec s, withFetchWord_encode i s⟩

/-- Settles O43: the inputs select LZC 0, whose code is the one on `err_out`, and with that code no data are asked for. -/
theorem resetIsSettled : Obligations.ResetIsSettled := by
  have hcode : errorRule State.reset.op State.reset.xIn = 1 := errorRule_of_le_five 0 (by decide)
  exact ⟨hcode.symm, fun hzero => absurd hzero (by decide)⟩

end Sys2Proof.Machine
end

section
/-! What an evaluation reads (20_memory.md sections 4 and 5): at most one word of a ROM, and the same word whatever was evaluated
before. -/

namespace Sys2Proof.Machine

section oneWord
variable {cfg : Config}

/-- R43: the correction step depends on the one word of `T` that its guess selects. -/
theorem correct_congr {g : Nat} (h : memReadT cfg g = memReadT l10u g) (x : Word32) :
    correct cfg g x = correct l10u g x := by
  rw [correct, correct, h]

/-- R48: ILOG10.L answers from the one word of `B` that its leading-zero count selects. -/
theorem evalIlog10L_eq_map_memReadB (v : NonZero) :
    evalIlog10L cfg v.val =
      (memReadB cfg (clz32 v).val).map fun b => .plain ((v.val.setWidth 64 + b) >>> 32) := by
  rw [evalIlog10L_of_ne, memReadB_of_lt cfg _ (clz32 v).isLt, Except.map]

end oneWord

/-- `i` evaluates the same under every configuration that has the unit's mask and holds the unit's word of `T` at `g`. -/
def DependsOnT (i : Instr) (g : Nat) : Prop :=
  ∀ cfg : Config, cfg.dgaMask = l10u.dgaMask → memReadT cfg g = memReadT l10u g → evalInstr cfg i = evalInstr l10u i

/-- `i` evaluates the same under every configuration that holds the unit's word of `B` at `l`. -/
def DependsOnB (i : Instr) (l : Nat) : Prop :=
  ∀ cfg : Config, memReadB cfg l = memReadB l10u l → evalInstr cfg i = evalInstr l10u i

section guessed
variable {f : Word32 → Instr} {guess : NonZero → Nat}

/-- An operation that corrects a guess depends on the word of `T` its guess selects, and at X = 0 on none. -/
theorem exists_dependsOnT_of_guess (hzero : ∀ cfg, evalInstr cfg (f 0) = .error .domainError)
    (hdata : ∀ (cfg : Config) (v : NonZero), cfg.dgaMask = l10u.dgaMask →
      evalInstr cfg (f v.val) = correct cfg (guess v) v.val)
    (hbound : ∀ v : NonZero, IsGuess v.val.toNat (guess v)) (x : Word32) : ∃ g, g ≤ 9 ∧ DependsOnT (f x) g := by
  by_cases hx : x = 0
  · subst hx
    exact ⟨0, by omega, fun cfg _ _ => (hzero cfg).trans (hzero l10u).symm⟩
  · obtain ⟨v, rfl⟩ : ∃ v : NonZero, v.val = x := ⟨⟨x, hx⟩, rfl⟩
    refine ⟨guess v, le_nine_of_isGuess (hbound v), fun cfg hmask hread => ?_⟩
    rw [hdata cfg v hmask, correct_congr hread, hdata l10u v rfl]

end guessed

/-- R46: with the unit's mask ILOG10.D forms the unit's guess. -/
theorem evalIlog10D_of_mask {cfg : Config} (hmask : cfg.dgaMask = l10u.dgaMask) (v : NonZero) :
    evalIlog10D cfg v.val = correct cfg (guessD dgaMaskWord v) v.val := by
  rw [evalIlog10D_of_ne, hmask, l10u_dgaMask]

section operations
variable (x : Word32)

theorem ilog10W_dependsOnT : ∃ g, g ≤ 9 ∧ DependsOnT (.ilog10W x) g :=
  exists_dependsOnT_of_guess (f := .ilog10W) evalIlog10W_zero (fun cfg v _ => evalIlog10W_of_ne cfg v) guessW_isGuess x

theorem ilog10D_dependsOnT : ∃ g, g ≤ 9 ∧ DependsOnT (.ilog10D x) g :=
  exists_dependsOnT_of_guess (f := .ilog10D) evalIlog10D_zero (fun _ v hmask => evalIlog10D_of_mask hmask v) guessD_isGuess x

theorem ilog10Q_dependsOnT : ∃ g, g ≤ 9 ∧ DependsOnT (.ilog10Q x) g :=
  exists_dependsOnT_of_guess (f := .ilog10Q) evalIlog10Q_zero (fun cfg v _ => evalIlog10Q_of_ne cfg v) guessQ_isGuess x

/-- R39: ROMT depends on the word it reads, and out of range on none. -/
theorem romt_dependsOnT : ∃ g, g ≤ 9 ∧ DependsOnT (.romt x) g := by
  rcases Nat.lt_or_ge x.toNat 10 with hlt | hge
  · refine ⟨x.toNat, by omega, fun cfg _ hread => ?_⟩
    rw [evalInstr, evalInstr, evalRomt_eq_map_memReadT (by omega), evalRomt_eq_map_memReadT (by omega), hread]
  · exact ⟨0, by omega, fun cfg _ _ => (evalRomt_of_ge cfg x hge).trans (evalRomt_of_ge l10u x hge).symm⟩

/-- R48: ILOG10.L depends on the word of its leading-zero count, and at X = 0 on none. -/
theorem ilog10L_dependsOnB : ∃ l, l ≤ 31 ∧ DependsOnB (.ilog10L x) l := by
  by_cases hx : x = 0
  · subst hx
    exact ⟨0, by omega, fun cfg _ => (evalIlog10L_zero cfg).trans (evalIlog10L_zero l10u).symm⟩
  · obtain ⟨v, rfl⟩ : ∃ v : NonZero, v.val = x := ⟨⟨x, hx⟩, rfl⟩
    refine ⟨(clz32 v).val, by omega, fun cfg hread => ?_⟩
    rw [evalInstr, evalInstr, evalIlog10L_eq_map_memReadB, evalIlog10L_eq_map_memReadB, hread]

/-- R40: ROMB depends on the word it reads, and out of range on none. -/
theorem romb_dependsOnB : ∃ l, l ≤ 31 ∧ DependsOnB (.romb x) l := by
  rcases Nat.lt_or_ge x.toNat 32 with hlt | hge
  · refine ⟨x.toNat, by omega, fun cfg hread => ?_⟩
    rw [evalInstr, evalInstr, evalRomb_eq_map_memReadB (by omega), evalRomb_eq_map_memReadB (by omega), hread]
  · exact ⟨0, by omega, fun cfg _ => (evalRomb_of_ge cfg x hge).trans (evalRomb_of_ge l10u x hge).symm⟩

end operations

/-- Settles O24, operation by operation. -/
theorem oneRomWordPerEvaluation : Obligations.OneRomWordPerEvaluation := by
  refine fun x => ⟨fun f hf => ?_, fun f hf => ?_⟩
  · have hcases : f = .ilog10W ∨ f = .ilog10D ∨ f = .ilog10Q ∨ f = .romt := by simpa using hf
    rcases hcases with rfl | rfl | rfl | rfl
    · exact ilog10W_dependsOnT x
    · exact ilog10D_dependsOnT x
    · exact ilog10Q_dependsOnT x
    · exact romt_dependsOnT x
  · have hcases : f = .ilog10L ∨ f = .romb := by simpa using hf
    rcases hcases with rfl | rfl
    · exact ilog10L_dependsOnB x
    · exact romb_dependsOnB x

section reads
variable (s : State)

/-- R39, on the ports: evaluating ROMT at an index of `T` drives the word it reads. -/
theorem evaluate_romt_of_read {x w : Word32} (hx : x.toNat ≤ 9) (hread : memReadT l10u x.toNat = .ok w) :
    evaluate (.romt x) s = .next ((s.present (.romt x)).drive (.plain (w.setWidth 64))) := by
  refine evaluate_of_evalInstr_ok ?_ s
  rw [evalInstr, evalRomt_eq_map_memReadT hx, hread, Except.map]

/-- R40, on the ports: evaluating ROMB at an index of `B` drives the word it reads. -/
theorem evaluate_romb_of_read {x : Word32} {b : Word64} (hx : x.toNat ≤ 31) (hread : memReadB l10u x.toNat = .ok b) :
    evaluate (.romb x) s = .next ((s.present (.romb x)).drive (.plain b)) := by
  refine evaluate_of_evalInstr_ok ?_ s
  rw [evalInstr, evalRomb_eq_map_memReadB hx, hread, Except.map]

/-- R15: an evaluation of ROMT at an index of `T` shows its threshold number, from any state. -/
theorem evaluate_romt_of_le {i : Nat} (hi : i ≤ 9) :
    ∃ t, evaluate (.romt (BitVec.ofNat 32 i)) s = .next t ∧ t.errOut = 0 ∧ t.rOut.toNat = thresholdNumber i := by
  have hindex : (BitVec.ofNat 32 i).toNat = i := Nat.mod_eq_of_lt (by omega)
  obtain ⟨w, hread, hw⟩ := memReadT_l10u_of_le hi
  exact ⟨_, evaluate_romt_of_read s (by rwa [hindex]) (by rwa [hindex]), rfl,
    (BitVec.toNat_setWidth_of_le (by omega)).trans hw⟩

/-- R17: an evaluation of ROMB at an index of `B` shows its row's bias number, from any state. -/
theorem evaluate_romb_of_le {l : Nat} (hl : l ≤ 31) :
    ∃ t g, evaluate (.romb (BitVec.ofNat 32 l)) s = .next t ∧ t.errOut = 0 ∧
      IsDigitCount (2 ^ (31 - l)) g ∧ t.rOut.toNat = biasNumber l g := by
  have hindex : (BitVec.ofNat 32 l).toNat = l := Nat.mod_eq_of_lt (by omega)
  obtain ⟨b, g, hread, hg, hb⟩ := memReadB_l10u_of_le hl
  exact ⟨_, g, evaluate_romb_of_read s (by rwa [hindex]) (by rwa [hindex]), rfl, hg, hb⟩

end reads

/-- Settles O26: a session runs to its end, and the reads answer the same from every state. -/
theorem romReadsAreConstantAfterAnySession : Obligations.RomReadsAreConstantAfterAnySession := by
  intro cmds s
  obtain ⟨u, hsession⟩ := session_samples cmds s
  exact ⟨_, u, hsession, fun _ => evaluate_romt_of_le u, fun _ => evaluate_romb_of_le u⟩

end Sys2Proof.Machine
end

section
/-! The error side of `eval` (60_exceptions.md section 1, R58): accepted commands answer data, the others a fault that no
configuration changes, and a session of accepted commands draws no free value. -/

namespace Sys2Proof.Machine

section accepted
variable {i : Instr}

/-- R58: a command that signals no error answers data. -/
theorem exists_data_of_accepted (h : i.accepted) : ∃ o, evalInstr l10u i = .ok o := by
  cases hanswer : evalInstr l10u i with
  | ok o => exact ⟨o, rfl⟩
  | error f => exact absurd ((errorRule_of_evalInstr_error hanswer).symm.trans h) (errCode_ne_zero f)

/-- R58: a command whose code is not 0 answers a fault of that code. -/
theorem exists_fault_of_not_accepted (h : ¬ i.accepted) :
    ∃ f, evalInstr l10u i = .error f ∧ errorRule (opcode i) i.operand = errCode f := by
  cases hanswer : evalInstr l10u i with
  | ok o =>
    have hrule := evalInstr_followsRules i
    rw [hanswer] at hrule
    exact absurd hrule.1 h
  | error f => exact ⟨f, rfl, errorRule_of_evalInstr_error hanswer⟩

end accepted

/-- R71: a safe sequence runs to its end with the answers of `eval` as samples and the counter of free values as it was. -/
theorem session_of_safeSession {cmds : List Instr} (hsafe : safeSession cmds) (s : State) :
    ∃ u, session cmds s = .next (cmds.map fun i => observation (evalInstr l10u i), u) ∧ u.draws = s.draws := by
  induction cmds generalizing s with
  | nil => exact ⟨s, rfl, rfl⟩
  | cons i rest ih =>
    obtain ⟨o, hanswer⟩ := exists_data_of_accepted (hsafe i List.mem_cons_self)
    obtain ⟨u, hrest, hdraws⟩ := ih (fun j hj => hsafe j (List.mem_cons_of_mem i hj)) ((s.present i).drive o)
    refine ⟨u, ?_, hdraws⟩
    rw [session_cons_of_next (evaluate_of_evalInstr_ok hanswer s) hrest, State.drive_sample, List.map_cons, hanswer,
      observation_ok]

/-- Settles O45. -/
theorem safeSessionsAlwaysGiveData : Obligations.SafeSessionsAlwaysGiveData := by
  intro cmds s hsafe
  obtain ⟨u, hsession, hdraws⟩ := session_of_safeSession hsafe s
  refine ⟨_, u, hsession, List.length_map _, hdraws, fun sample hsample => ?_⟩
  obtain ⟨i, hi, rfl⟩ := List.mem_map.mp hsample
  obtain ⟨o, hanswer⟩ := exists_data_of_accepted (hsafe i hi)
  rw [hanswer]
  exact ⟨rfl, Option.some_ne_none o⟩

/-- R56: at X = 0 the operations of code 0 to 5 raise DomainError under every configuration. -/
theorem evalInstr_of_operand_zero (cfg : Config) {i : Instr} (hop : (opcode i).toNat ≤ 5) (hx : i.operand = 0) :
    evalInstr cfg i = .error .domainError := by
  cases i with
  | lzc x => cases hx; exact evalLzc_zero
  | hsb x => cases hx; exact evalHsb_zero
  | ilog10W x => cases hx; exact evalIlog10W_zero cfg
  | ilog10D x => cases hx; exact evalIlog10D_zero cfg
  | ilog10Q x => cases hx; exact evalIlog10Q_zero cfg
  | ilog10L x => cases hx; exact evalIlog10L_zero cfg
  | romt x => exact absurd hop (by simp)
  | romb x => exact absurd hop (by simp)

/-- A fault does not depend on the configuration, and its kind is that of the operation (R56, R57). -/
theorem evalInstr_error_of_not_accepted (cfg : Config) {i : Instr} (h : ¬ i.accepted) :
    evalInstr cfg i = .error (if (opcode i).toNat ≤ 5 then .domainError else .indexError) := by
  obtain ⟨f, -, hcode⟩ := exists_fault_of_not_accepted h
  obtain ⟨-, hop, hx⟩ | ⟨-, hop, hx⟩ | ⟨-, hop, hx⟩ := cause_of_errorRule hcode
  · rw [if_pos hop]
    exact evalInstr_of_operand_zero cfg hop hx
  · rw [eq_of_opcode_of_operand (j := .romt i.operand) hop rfl]
    exact evalRomt_of_ge cfg i.operand hx
  · rw [eq_of_opcode_of_operand (j := .romb i.operand) hop rfl]
    exact evalRomb_of_ge cfg i.operand hx

/-- Settles O38: the fault is the one whose code R58 gives, and `State.raise` is its whole effect. -/
theorem erroneousEvaluationsDrawFreeValues : Obligations.ErroneousEvaluationsDrawFreeValues := by
  refine fun i s h => ⟨fun cfg => evalInstr_error_of_not_accepted cfg h, ?_⟩
  obtain ⟨f, hanswer, hcode⟩ := exists_fault_of_not_accepted h
  rw [exec_eq_conclude, hanswer, conclude_error, hcode, State.raise]

end Sys2Proof.Machine
end

section
/-! ILOG10.D under another mask (93_implementation_defined.md U6), and the composite operations as a host computes them from the
leaves (95_test_vectors.md section 3, program P5). -/

namespace Sys2Proof.Machine

/-- R44: a number that is the digit count or one less is a guess. -/
theorem isGuess_of_isDigitCount {x k g : Nat} (hk : IsDigitCount x k) (hle : g ≤ k) (hge : k ≤ g + 1) : IsGuess x g := by
  obtain ⟨hlo, hhi⟩ := hk
  exact ⟨(Nat.pow_le_pow_right (by omega) hle).trans hlo, hhi.trans_le (Nat.pow_le_pow_right (by omega) (by omega))⟩

/-- Settles O34: the thresholds are those of the unit, and under them every guess is corrected to the digit count. -/
theorem anyBoundedMaskGivesTheSameResult : Obligations.AnyBoundedMaskGivesTheSameResult := by
  intro mask x hx k hk hle hge
  obtain ⟨o, m, ho, hm, hr, hguess, -, hsum⟩ :=
    correct_of_isGuess (cfg := ⟨l10u.threshold, l10u.bias, mask⟩) rfl (isGuess_of_isDigitCount hk hle hge)
  obtain rfl := isDigitCount_unique _ _ _ hm hk
  exact ⟨o, (evalIlog10D_of_ne _ ⟨x, hx⟩).trans ho, hr, hguess, by omega⟩

section leaves
variable (v : NonZero)

/-- The index that a host forms from the result of LZC. -/
theorem clz32_index_toNat : ((BitVec.ofNat 64 (clz32 v).val).setWidth 32).toNat = (clz32 v).val := by
  have hlt := (clz32 v).isLt
  rw [BitVec.setWidth_ofNat_of_le (by omega), BitVec.toNat_ofNat]
  omega

/-- The guess of ILOG10.W as a host forms it from the result of HSB. -/
theorem scaled_msb32 : (9 * BitVec.ofNat 64 (msb32 v).val) >>> 5 = BitVec.ofNat 64 (guessW v) := by
  have hlt := (msb32 v).isLt
  have hguess := guessW_le_eight v
  have hproduct : 9 * BitVec.ofNat 64 (msb32 v).val = BitVec.ofNat 64 (9 * (msb32 v).val) := (BitVec.ofNat_mul ..).symm
  apply BitVec.eq_of_toNat_eq
  rw [hproduct, BitVec.toNat_ushiftRight, BitVec.toNat_ofNat, BitVec.toNat_ofNat, Nat.mod_eq_of_lt (by omega),
    Nat.mod_eq_of_lt (by omega), guessW]

/-- The index that a host forms from the result of HSB. -/
theorem guessW_index_toNat :
    (((9 * BitVec.ofNat 64 (msb32 v).val) >>> 5).setWidth 32).toNat = guessW v := by
  have hle := guessW_le_eight v
  rw [scaled_msb32, BitVec.setWidth_ofNat_of_le (by omega), BitVec.toNat_ofNat]
  omega

end leaves

/-- Zero extension keeps the order of two words. -/
theorem setWidth_lt_setWidth_iff (w x : Word32) : w.setWidth 64 < x.setWidth 64 ↔ w < x := by
  rw [BitVec.lt_def, BitVec.lt_def, BitVec.toNat_setWidth_of_le (by omega), BitVec.toNat_setWidth_of_le (by omega)]

section ports
variable {x w : Word32} {g c : Nat} (h : Comparison x g w c)
include h

/-- R43, R44: the comparison as `corr_out` shows it, between the word as ROMT shows it and the operand. -/
theorem Comparison.corrOut_eq : BitVec.ofNat 1 c = if w.setWidth 64 < x.setWidth 64 then 1 else 0 := by
  rw [h.comparator]
  simp only [setWidth_lt_setWidth_iff]
  split <;> rfl

/-- R43: the sum holds on the ports, none of which cuts anything off. -/
theorem Comparison.rOut_toNat :
    (BitVec.ofNat 64 (g + c)).toNat = (BitVec.ofNat 4 g).toNat + (BitVec.ofNat 1 c).toNat := by
  have hsum := h.sum_le_nine
  have hone := h.le_one
  rw [BitVec.toNat_ofNat, BitVec.toNat_ofNat, BitVec.toNat_ofNat]
  omega

end ports

/-- Settles O36: the leaves hand the host the index that the composite operation reads its own word at. -/
theorem compositesFollowFromTheLeaves : Obligations.CompositesFollowFromTheLeaves := by
  intro x s hx
  obtain ⟨v, rfl⟩ : ∃ v : NonZero, v.val = x := ⟨⟨x, hx⟩, rfl⟩
  constructor
  · have hindex := clz32_index_toNat v
    have hread : memReadB l10u ((BitVec.ofNat 64 (clz32 v).val).setWidth 32).toNat = .ok biasWords[(clz32 v).val] := by
      rw [hindex]
      exact memReadB_of_lt l10u _ (clz32 v).isLt
    exact ⟨_, _, _, evaluate_of_evalInstr_ok (i := .lzc v.val) (evalLzc_of_ne v) s,
      evaluate_romb_of_read _ (hindex.trans_le (by omega)) hread,
      evaluate_of_evalInstr_ok (i := .ilog10L v.val) (evalIlog10L_of_ne l10u v) _, rfl, rfl, rfl, rfl⟩
  · have hindex := guessW_index_toNat v
    obtain ⟨w, c, hcmp⟩ := exists_comparison_of_isGuess (guessW_isGuess v)
    have hread := hcmp.read
    rw [← hindex] at hread
    have hanswer : evalInstr l10u (.ilog10W v.val) = _ := (evalIlog10W_of_ne l10u v).trans hcmp.correct_eq
    refine ⟨_, _, _, evaluate_of_evalInstr_ok (i := .hsb v.val) (evalHsb_of_ne v) s,
      evaluate_romt_of_read _ (hindex.trans_le (le_nine_of_isGuess (guessW_isGuess v))) hread,
      evaluate_of_evalInstr_ok hanswer _, rfl, rfl, rfl, ?_, hcmp.corrOut_eq, hcmp.rOut_toNat⟩
    have hguess := congrArg (BitVec.setWidth 4) (scaled_msb32 v)
    rw [BitVec.setWidth_ofNat_of_le (by omega)] at hguess
    exact hguess.symm

end Sys2Proof.Machine
end

section
/-! The textual form (30_encoding.md R32, R33; log 8): a written command is two words, its name and its literal, and each reads
back as what it was written for. -/

namespace Sys2Proof.Machine

section words

/-- The letters of a word are collected until a blank or the end of the line. -/
theorem wordsFrom_append {word : List Char} (hword : ∀ c ∈ word, c ≠ ' ' ∧ c ≠ '\t') (begun rest : List Char) :
    wordsFrom begun (word ++ rest) = wordsFrom (word.reverse ++ begun) rest := by
  induction word generalizing begun with
  | nil => rfl
  | cons c word ih =>
    obtain ⟨hc, htail⟩ := List.forall_mem_cons.mp hword
    have hletter : ¬ (c = ' ' ∨ c = '\t') := not_or.mpr hc
    rw [List.cons_append, wordsFrom, if_neg hletter, ih htail, List.reverse_cons, List.append_assoc, List.singleton_append]

/-- R32: a line of two words. -/
theorem wordsFrom_two_words {name literal : List Char} (hname : ∀ c ∈ name, c ≠ ' ' ∧ c ≠ '\t')
    (hliteral : ∀ c ∈ literal, c ≠ ' ' ∧ c ≠ '\t') (hname_ne : name ≠ []) (hliteral_ne : literal ≠ []) :
    wordsFrom [] (name ++ ' ' :: literal) = [name, literal] := by
  have hlast : wordsFrom [] literal = [literal] := by
    have happend := wordsFrom_append hliteral [] []
    rw [List.append_nil, List.append_nil] at happend
    simp [happend, wordsFrom, hliteral_ne]
  rw [wordsFrom_append hname, List.append_nil]
  simp [wordsFrom, hname_ne, hlast]

end words

section names

/-- R28, R33: no two mnemonics are written alike, so each is found under its name. -/
theorem lookupMnemonic_mnemonicName (m : Mnemonic) : lookupMnemonic (mnemonicName m) = some m := by
  cases m <;> decide

theorem mnemonicName_ne_nil (m : Mnemonic) : mnemonicName m ≠ [] := by
  cases m <;> decide

/-- A letter that neither separates words nor begins a comment. -/
def IsWordLetter (c : Char) : Prop :=
  (c ≠ ' ' ∧ c ≠ '\t') ∧ c ≠ ';'

theorem isWordLetter_of_mem_mnemonicName (m : Mnemonic) : ∀ c ∈ mnemonicName m, IsWordLetter c := by
  cases m <;> simp [mnemonicName, IsWordLetter]

end names

section literals

theorem isWordLetter_hexDigit : ∀ d : Fin 16, IsWordLetter (hexDigit d.val) := by
  unfold IsWordLetter
  decide

/-- R32: each hexadecimal digit is read as its value. -/
theorem digitValue_hexDigit : ∀ d : Fin 16, digitValue 16 (hexDigit d.val) = some d.val := by
  decide

theorem isWordLetter_of_mem_hexDigits {k n : Nat} : ∀ c ∈ hexDigits k n, IsWordLetter c := by
  induction k generalizing n with
  | zero => exact fun c hc => absurd hc List.not_mem_nil
  | succ k ih =>
    intro c hc
    rw [hexDigits, List.mem_append, List.mem_singleton] at hc
    rcases hc with hc | rfl
    · exact ih c hc
    · exact isWordLetter_hexDigit ⟨n % 16, Nat.mod_lt n (by omega)⟩

/-- The digits after the first ones are read with the value of those before them. -/
theorem digitsValue_append {base acc v : Nat} {first : List Char} (hfirst : digitsValue base acc first = some v)
    (rest : List Char) : digitsValue base acc (first ++ rest) = digitsValue base v rest := by
  induction first generalizing acc with
  | nil =>
    obtain rfl : acc = v := Option.some.inj hfirst
    rfl
  | cons c first ih =>
    rw [List.cons_append, digitsValue]
    rw [digitsValue] at hfirst
    cases hc : digitValue base c with
    | some d =>
      rw [hc] at hfirst
      exact ih hfirst
    | none =>
      rw [hc] at hfirst
      cases hfirst

/-- R27, R32: k hexadecimal digits read back as the number they were written for. -/
theorem digitsValue_hexDigits {k n : Nat} (hn : n < 16 ^ k) : digitsValue 16 0 (hexDigits k n) = some n := by
  induction k generalizing n with
  | zero =>
    obtain rfl : n = 0 := by omega
    rfl
  | succ k ih =>
    rw [pow_succ] at hn
    have hlast := digitValue_hexDigit ⟨n % 16, Nat.mod_lt n (by omega)⟩
    rw [hexDigits, digitsValue_append (ih (n := n / 16) (by omega))]
    simp only [digitsValue, hlast]
    exact congrArg some (by omega)

/-- The operand of a command as it is written. -/
def literalText (x : Word32) : List Char :=
  '0' :: 'x' :: hexDigits 8 x.toNat

/-- R32: a written operand reads back as its number. -/
theorem literalValue_literalText (x : Word32) : literalValue (literalText x) = some x.toNat := by
  have hne : hexDigits 8 x.toNat ≠ [] := by simp [hexDigits]
  rw [literalText, literalValue, if_neg (by simpa using hne), digitsValue_hexDigits x.isLt]

theorem isWordLetter_of_mem_literalText (x : Word32) : ∀ c ∈ literalText x, IsWordLetter c := by
  rw [literalText, List.forall_mem_cons, List.forall_mem_cons]
  refine ⟨?_, ?_, fun c => isWordLetter_of_mem_hexDigits c⟩ <;> simp [IsWordLetter]

end literals

section lines
variable (i : Instr)

/-- R32: a command is written as its name and its operand with a blank between. -/
theorem sourceText_eq : sourceText i = mnemonicName i.mnemonic ++ ' ' :: literalText i.operand := by
  rw [sourceText, literalText, List.append_assoc]
  rfl

theorem wordsFrom_sourceText : wordsFrom [] (sourceText i) = [mnemonicName i.mnemonic, literalText i.operand] := by
  rw [sourceText_eq]
  exact wordsFrom_two_words (fun c hc => (isWordLetter_of_mem_mnemonicName _ c hc).1)
    (fun c hc => (isWordLetter_of_mem_literalText _ c hc).1) (mnemonicName_ne_nil _) (List.cons_ne_nil _ _)

/-- A written command has no semicolon, so a comment after it is cut off and nothing else. -/
theorem takeWhile_sourceText_append (rest : List Char) :
    (sourceText i ++ rest).takeWhile (· != ';') = sourceText i ++ rest.takeWhile (· != ';') := by
  refine List.takeWhile_append_of_pos fun c hc => bne_iff_ne.mpr ?_
  rw [sourceText_eq, List.mem_append, List.mem_cons] at hc
  rcases hc with hc | rfl | hc
  · exact (isWordLetter_of_mem_mnemonicName _ c hc).2
  · decide
  · exact (isWordLetter_of_mem_literalText _ c hc).2

/-- R32: an operand of 32 bits is in the range of a literal. -/
theorem toSource_wf : i.toSource.wf :=
  wf_of_le i.mnemonic (Nat.le_of_lt_succ i.operand.isLt)

/-- A line that is a written command before its comment reads back as that command. -/
theorem parseLine_of_takeWhile_eq {line : List Char} (h : line.takeWhile (· != ';') = sourceText i) :
    parseLine line = .ok (some i.toSource) := by
  have hwf : (SourceCmd.mk i.mnemonic i.operand.toNat).wf := toSource_wf i
  simp only [parseLine, h, wordsFrom_sourceText, lookupMnemonic_mnemonicName, literalValue_literalText, hwf, if_true]
  rfl

/-- R28: an operation is what its own mnemonic expands to. -/
theorem expand_mnemonic : expand i.mnemonic i.operand = i := by
  cases i <;> rfl

theorem assemble_toSource : assemble i.toSource = .ok i := by
  rw [assemble_of_wf (toSource_wf i), Instr.toSource, BitVec.ofNat_toNat, BitVec.setWidth_eq, expand_mnemonic]

end lines

/-- R32: a source command is refused exactly when its literal is too large. -/
theorem assemble_eq_error_iff (c : SourceCmd) : assemble c = .error .operandTooLarge ↔ 4294967295 < c.operand := by
  rcases Nat.lt_or_ge 4294967295 c.operand with hlarge | hsmall
  · have hwf : ¬ c.wf := fun h => absurd (of_decide_eq_true h) (not_le.mpr hlarge)
    exact iff_of_true (if_neg hwf) hlarge
  · refine iff_of_false (fun hrefused => ?_) (not_lt.mpr hsmall)
    cases (assemble_of_wf (wf_of_le c.mnemonic hsmall)).symm.trans hrefused

/-- Settles O47: the line without its comment is the written command. -/
theorem sourceTextReadsBack : Obligations.SourceTextReadsBack := by
  refine ⟨fun i comment => ⟨?_, ?_, assemble_toSource i⟩, assemble_eq_error_iff⟩
  · refine parseLine_of_takeWhile_eq i ?_
    have htake := takeWhile_sourceText_append i []
    rwa [List.append_nil, List.takeWhile_nil, List.append_nil] at htake
  · refine parseLine_of_takeWhile_eq i ?_
    rw [takeWhile_sourceText_append, List.takeWhile_cons_of_neg (by decide), List.append_nil]

end Sys2Proof.Machine
end
